-- ==== Sys2Proof/Word.lean ====
section
/-!
DEFINITION. The words of the core and the small closed sets its commands name: the 32-bit container word, the logical
widths, the thirty conditions and the seven fault causes.
-/
namespace Sys2Proof

/-- Every operand, result and intermediate word is 32 bits wide (00_scope R7). -/
abbrev Word := BitVec 32

/-- The one command format is a 16-bit word (30_encoding R55). -/
abbrev CmdWord := BitVec 16

/-- The logical widths, a closed set of three (00_scope R8). -/
inductive Width where
  | w8
  | w16
  | w32
  deriving DecidableEq, Repr

/-- The thirty condition predicates, in the order of their cc values 0 to 29 (45_flags_predicates R161-R190). -/
inductive Cond where
  | o
  | no
  | b
  | c
  | nae
  | ae
  | nb
  | nc
  | e
  | z
  | ne
  | nz
  | be
  | na
  | a
  | nbe
  | s
  | ns
  | p
  | pe
  | np
  | po
  | l
  | nge
  | ge
  | nl
  | le
  | ng
  | g
  | nle
  deriving DecidableEq, Repr

/-- The causes a fault records (60_exceptions R211-R218); "no fault" is no cause. -/
inductive Cause where
  /-- Raised by a command word that spells no operation (R211). -/
  | illegalCommand
  /-- Raised by a width-taking operation with the fourth width code (R213). -/
  | badWidth
  /-- Raised by TEST with cc 30 or 31 (R212). -/
  | badCond
  /-- Raised by every command but INIT before the first INIT (R214). -/
  | lutUninit
  /-- Raised by TEST before the first CMP (R215). -/
  | flagsUndefined
  /-- Raised by LUTRD with an index above 31 (R217). -/
  | lutIndex
  /-- Raised by SHL with a negative amount (R218). -/
  | shiftRange
  deriving DecidableEq, Repr

/-- The 5-flag record (10_state R25); `ovf` is the field the spec calls OF. -/
structure Flags where
  cf : Bool
  pf : Bool
  zf : Bool
  sf : Bool
  ovf : Bool
  deriving DecidableEq, Repr

end Sys2Proof
end

