-- ==== Sys2Proof/Syntax.lean ====
section
/-!
DEFINITION. The commands, one constructor per row of spec/opcode_table.json, in the table's order. Operands are not part of
a command word (30_encoding R64): they arrive on the ports A, B and C.
-/
namespace Sys2Proof

/-- A command word's meaning: the operation, with the width or the condition its fields select (30_encoding R57-R59). -/
inductive Instr where
  | nor
  | not
  | or
  | and
  | xor
  | norb
  | notb
  | orb
  | andb
  | xorb
  | neg
  | inc
  | dec
  | sel
  | add (w : Width)
  | sub (w : Width)
  | shl (w : Width)
  | cmp (w : Width)
  | mul (w : Width)
  | test (cc : Cond)
  | lutrd
  | init
  deriving DecidableEq, Repr

/-- The four fields of a command word, in raw bits (30_encoding R56). -/
structure CmdFields where
  rsv : BitVec 3
  cc : BitVec 5
  w : BitVec 2
  op : BitVec 6
  deriving DecidableEq, Repr

end Sys2Proof
end

