-- ==== Sys2Proof/WellFormed.lean ====
section
/-!
DEFINITION. When the four raw fields of a command word spell a command (30_encoding R57-R61, R66), stated as one check for
each requirement. A term of `Instr` can hold no ill-formed field: the width and the condition are closed sets there, so the
checks are on the raw fields.
-/
namespace Sys2Proof

/-- The operations that take a width: ADD, SUB, SHL, CMP, MUL (30_encoding R57). -/
def CmdFields.takesWidth (f : CmdFields) : Bool :=
  f.op == 0x10 || f.op == 0x11 || f.op == 0x12 || f.op == 0x13 || f.op == 0x14

/-- The one operation that takes a condition: TEST (30_encoding R57). -/
def CmdFields.takesCond (f : CmdFields) : Bool := f.op == 0x18

/-- The op value is one that 30_encoding R57 assigns. -/
def CmdFields.opAssigned (f : CmdFields) : Bool :=
  (1 ≤ f.op.toNat && f.op.toNat ≤ 0x0E) || f.takesWidth || f.takesCond || f.op == 0x1C || f.op == 0x1F

/-- The reserved bits are zero (30_encoding R61). -/
def CmdFields.rsvZero (f : CmdFields) : Bool := f.rsv == 0

/-- A width field is used only by an operation that takes one (30_encoding R60). -/
def CmdFields.widthUsed (f : CmdFields) : Bool := f.takesWidth || f.w == 0

/-- A condition field is used only by TEST (30_encoding R60). -/
def CmdFields.condUsed (f : CmdFields) : Bool := f.takesCond || f.cc == 0

/-- A width field selects 8, 16 or 32 (30_encoding R58). -/
def CmdFields.widthLegal (f : CmdFields) : Bool := !(f.takesWidth && f.w == 3)

/-- A condition field selects one of the thirty predicates (30_encoding R59). -/
def CmdFields.condLegal (f : CmdFields) : Bool := !(f.takesCond && 30 ≤ f.cc.toNat)

/-- The fields spell a command. -/
def CmdFields.wellFormed (f : CmdFields) : Bool :=
  f.rsvZero && f.opAssigned && f.widthUsed && f.condUsed && f.widthLegal && f.condLegal

end Sys2Proof
end

