-- ==== Sys2Proof/Decode.lean ====
section
/-!
DEFINITION. The decoder, total on 16-bit command words and rejecting by cause (30_encoding R65), and the encoder, written
from the same field tables (R56-R59). Also each command's spelling in the assembler syntax (R68).
-/
namespace Sys2Proof

/-- The one verdict a command word gets (30_encoding R65). -/
inductive Verdict where
  | op (i : Instr)
  | fault (c : Cause)
  deriving DecidableEq, Repr

/-- How an operation uses its word's fields (30_encoding R57). -/
inductive OpForm where
  | plain (i : Instr)
  | widthTaking (mk : Width → Instr)
  | condTaking

/-- The fields of a word (30_encoding R56). -/
def cmdFields (cmd : CmdWord) : CmdFields where
  rsv := cmd.extractLsb' 13 3
  cc := cmd.extractLsb' 8 5
  w := cmd.extractLsb' 6 2
  op := cmd.extractLsb' 0 6

/-- The word of four fields (30_encoding R56). -/
def cmdOfFields (f : CmdFields) : CmdWord :=
  f.rsv.zeroExtend 16 <<< 13 ||| f.cc.zeroExtend 16 <<< 8 ||| f.w.zeroExtend 16 <<< 6 ||| f.op.zeroExtend 16

/-- The opcode map (30_encoding R57); none for a reserved value. -/
def opForm (op : BitVec 6) : Option OpForm :=
  match op.toNat with
  | 0x01 => some (.plain .nor)
  | 0x02 => some (.plain .not)
  | 0x03 => some (.plain .or)
  | 0x04 => some (.plain .and)
  | 0x05 => some (.plain .xor)
  | 0x06 => some (.plain .norb)
  | 0x07 => some (.plain .notb)
  | 0x08 => some (.plain .orb)
  | 0x09 => some (.plain .andb)
  | 0x0A => some (.plain .xorb)
  | 0x0B => some (.plain .neg)
  | 0x0C => some (.plain .inc)
  | 0x0D => some (.plain .dec)
  | 0x0E => some (.plain .sel)
  | 0x10 => some (.widthTaking .add)
  | 0x11 => some (.widthTaking .sub)
  | 0x12 => some (.widthTaking .shl)
  | 0x13 => some (.widthTaking .cmp)
  | 0x14 => some (.widthTaking .mul)
  | 0x18 => some .condTaking
  | 0x1C => some (.plain .lutrd)
  | 0x1F => some (.plain .init)
  | _ => none

/-- The width code (30_encoding R58); none for the reserved code 11. -/
def widthOfCode (w : BitVec 2) : Option Width :=
  match w.toNat with
  | 0 => some .w8
  | 1 => some .w16
  | 2 => some .w32
  | _ => none

/-- The condition code (30_encoding R59; 45_flags_predicates R161-R190); none for 30 and 31. -/
def condOfCode (cc : BitVec 5) : Option Cond :=
  match cc.toNat with
  | 0 => some .o
  | 1 => some .no
  | 2 => some .b
  | 3 => some .c
  | 4 => some .nae
  | 5 => some .ae
  | 6 => some .nb
  | 7 => some .nc
  | 8 => some .e
  | 9 => some .z
  | 10 => some .ne
  | 11 => some .nz
  | 12 => some .be
  | 13 => some .na
  | 14 => some .a
  | 15 => some .nbe
  | 16 => some .s
  | 17 => some .ns
  | 18 => some .p
  | 19 => some .pe
  | 20 => some .np
  | 21 => some .po
  | 22 => some .l
  | 23 => some .nge
  | 24 => some .ge
  | 25 => some .nl
  | 26 => some .le
  | 27 => some .ng
  | 28 => some .g
  | 29 => some .nle
  | _ => none

/-- The decoding of the four fields, its checks in the order of 30_encoding R65. -/
def decodeFields (f : CmdFields) : Verdict :=
  if f.rsv ≠ 0 then .fault .illegalCommand
  else
    match opForm f.op with
    | none => .fault .illegalCommand
    | some (.widthTaking mk) =>
      if f.cc ≠ 0 then .fault .illegalCommand
      else
        match widthOfCode f.w with
        | none => .fault .badWidth
        | some w => .op (mk w)
    | some .condTaking =>
      if f.w ≠ 0 then .fault .illegalCommand
      else
        match condOfCode f.cc with
        | none => .fault .badCond
        | some cc => .op (.test cc)
    | some (.plain i) => if f.w ≠ 0 ∨ f.cc ≠ 0 then .fault .illegalCommand else .op i

/-- The decoder (30_encoding R65). -/
def decode (cmd : CmdWord) : Verdict := decodeFields (cmdFields cmd)

/-! ## The encoder -/

/-- The code of a width (30_encoding R58). -/
def widthCode : Width → BitVec 2
  | .w8 => 0b00
  | .w16 => 0b01
  | .w32 => 0b10

/-- The cc value of a condition (45_flags_predicates R161-R190). -/
def condCode : Cond → BitVec 5
  | .o => 0
  | .no => 1
  | .b => 2
  | .c => 3
  | .nae => 4
  | .ae => 5
  | .nb => 6
  | .nc => 7
  | .e => 8
  | .z => 9
  | .ne => 10
  | .nz => 11
  | .be => 12
  | .na => 13
  | .a => 14
  | .nbe => 15
  | .s => 16
  | .ns => 17
  | .p => 18
  | .pe => 19
  | .np => 20
  | .po => 21
  | .l => 22
  | .nge => 23
  | .ge => 24
  | .nl => 25
  | .le => 26
  | .ng => 27
  | .g => 28
  | .nle => 29

/-- The fields of an operation that uses neither the width nor the condition field. -/
def plainFields (op : BitVec 6) : CmdFields := { rsv := 0, cc := 0, w := 0, op := op }

/-- The fields of an operation that takes a width. -/
def widthFields (op : BitVec 6) (w : Width) : CmdFields := { plainFields op with w := widthCode w }

/-- The fields that spell a command (30_encoding R57). -/
def instrFields : Instr → CmdFields
  | .nor => plainFields 0x01
  | .not => plainFields 0x02
  | .or => plainFields 0x03
  | .and => plainFields 0x04
  | .xor => plainFields 0x05
  | .norb => plainFields 0x06
  | .notb => plainFields 0x07
  | .orb => plainFields 0x08
  | .andb => plainFields 0x09
  | .xorb => plainFields 0x0A
  | .neg => plainFields 0x0B
  | .inc => plainFields 0x0C
  | .dec => plainFields 0x0D
  | .sel => plainFields 0x0E
  | .add w => widthFields 0x10 w
  | .sub w => widthFields 0x11 w
  | .shl w => widthFields 0x12 w
  | .cmp w => widthFields 0x13 w
  | .mul w => widthFields 0x14 w
  | .test cc => { plainFields 0x18 with cc := condCode cc }
  | .lutrd => plainFields 0x1C
  | .init => plainFields 0x1F

/-- The encoder: the one word that spells a command (30_encoding R60). -/
def encode (i : Instr) : CmdWord := cmdOfFields (instrFields i)

/-- The instruction the decoder reads from a table row's word of `nbits` bits (every bit above `nbits` is 0); none where
the decoder refuses it. -/
def decodeTableWord (nbits w : Nat) : Option Instr :=
  match decode (BitVec.ofNat 16 (w % 2 ^ nbits)) with
  | .op i => some i
  | .fault _ => none

/-! ## Spelling (30_encoding R68, R69) -/

/-- The width suffix. -/
def widthSuffix : Width → String
  | .w8 => ".8"
  | .w16 => ".16"
  | .w32 => ".32"

/-- The condition's assembler name (45_flags_predicates R161-R190). -/
def condName : Cond → String
  | .o => "O"
  | .no => "NO"
  | .b => "B"
  | .c => "C"
  | .nae => "NAE"
  | .ae => "AE"
  | .nb => "NB"
  | .nc => "NC"
  | .e => "E"
  | .z => "Z"
  | .ne => "NE"
  | .nz => "NZ"
  | .be => "BE"
  | .na => "NA"
  | .a => "A"
  | .nbe => "NBE"
  | .s => "S"
  | .ns => "NS"
  | .p => "P"
  | .pe => "PE"
  | .np => "NP"
  | .po => "PO"
  | .l => "L"
  | .nge => "NGE"
  | .ge => "GE"
  | .nl => "NL"
  | .le => "LE"
  | .ng => "NG"
  | .g => "G"
  | .nle => "NLE"

/-- The command's mnemonic with its suffix, operands not written (30_encoding R68). -/
def spelling : Instr → String
  | .nor => "NOR"
  | .not => "NOT"
  | .or => "OR"
  | .and => "AND"
  | .xor => "XOR"
  | .norb => "NORB"
  | .notb => "NOTB"
  | .orb => "ORB"
  | .andb => "ANDB"
  | .xorb => "XORB"
  | .neg => "NEG"
  | .inc => "INC"
  | .dec => "DEC"
  | .sel => "SEL"
  | .add w => "ADD" ++ widthSuffix w
  | .sub w => "SUB" ++ widthSuffix w
  | .shl w => "SHL" ++ widthSuffix w
  | .cmp w => "CMP" ++ widthSuffix w
  | .mul w => "MUL" ++ widthSuffix w
  | .test cc => "TEST." ++ condName cc
  | .lutrd => "LUTRD"
  | .init => "INIT"

end Sys2Proof
end

