-- ==== Sys2Proof/Config.lean ====
section
/-!
DEFINITION. What the source leaves open (00_scope R10): the parity rule, named, and the free draws, each an opaque constant
with no body, so that no proof can see a value of it.
-/
namespace Sys2Proof

/-- The readings of PF_RULE the source's words admit (45_flags_predicates R156; 93_implementation_defined I4). -/
inductive PfRule where
  /-- Reading (a), the spec's default: PF starts at 0 and toggles at each bit i < 8 with SF = 1. -/
  | toggleFromZero
  /-- Reading (b): the same toggle, PF starting at 1. -/
  | toggleFromOne
  /-- Reading (c): at each bit with SF = 1, PF becomes "i < 8"; it starts at 0. -/
  | setBelowEight
  /-- No reading at all: PF is `Config.pfFree` of the low operand bits and the width. -/
  | free
  deriving DecidableEq, Repr

/-- The commands that draw the parameter UPPER. -/
inductive DrawSite where
  | add
  | sub
  | shl
  | mul
  deriving DecidableEq, Repr

/-- UPPER (00_scope R10, 92 D9): the word whose bits `[31:w]` become the upper bits of a width-`w` result. A FREE VALUE,
fresh for the command (the Nat is the draw counter), its width and its two operands. -/
opaque Config.upper : DrawSite → Width → Nat → Word → Word → Word

/-- MULDRAW (00_scope R10, 92 D19): the whole result of MUL outside its domain. A FREE VALUE, as `Config.upper`. -/
opaque Config.mulDraw : Width → Nat → Word → Word → Word

/-- What table entry `i` holds after the reset numbered by the first Nat (10_state R23: a draw). A FREE VALUE. -/
opaque Config.resetLut : Nat → Nat → Word

/-- What flag number `k` (0 CF, 1 PF, 2 ZF, 3 SF, 4 OF) holds after that reset (10_state R25: a draw). A FREE VALUE. -/
opaque Config.resetFlag : Nat → Nat → Bool

/-- PF as an unconstrained function of the width and the low operand bits (45_flags_predicates R156). A FREE VALUE. -/
opaque Config.pfFree : Width → Word → Word → Bool

end Sys2Proof
end

