-- ==== Sys2Proof/Machine/State.lean ====
section
/-!
DEFINITION. The machine's state as plain data: the five architectural elements of 10_state R22, the outputs Y and P, the
command port, and the model's own fields (the host's pending inputs, the draw counter, the parameter PF_RULE); the reasons
a step can stop; and the state after reset.
-/
namespace Sys2Proof.Machine

/-- One presentation on the command port: a command word and the three operand words (30_encoding R55, R62). -/
structure Command where
  word : CmdWord
  a : Word
  b : Word
  c : Word
  deriving DecidableEq, Repr

/-- What the host can do to the core: present a command, or assert the reset input between commands (20_memory R45,
70_reset R230). -/
inductive HostInput where
  | command (cmd : Command)
  | reset
  deriving DecidableEq, Repr

/-- The machine's state. -/
structure State where
  /-- LUT[0..31] (10_state R23). -/
  lut : Vector Word 32
  /-- LUT_VALID: INIT has run since reset (R24). -/
  lutValid : Bool
  /-- FLAGS (R25). -/
  flags : Flags
  /-- FLAGS_VALID: CMP has run since reset (R32). -/
  flagsValid : Bool
  /-- FAULT_CAUSE, mirrored on the output FAULT; 0 is no fault (R33). -/
  faultCause : BitVec 3
  /-- The command last presented on the port; its operand words are what the running command reads (30_encoding R62). -/
  port : Command
  /-- The host's inputs the core has not taken yet, the next one first (20_memory R45). DESIGN CHOICE, entry 1. -/
  pending : List HostInput
  /-- Output Y; none where it is not driven (10_state R36). Entry 2. -/
  y : Option Word
  /-- Output P; none where it is not driven (10_state R36). Entry 2. -/
  p : Option Bool
  /-- The model's own: how many free values have been taken (entry 7). -/
  draws : Nat
  /-- The parameter PF_RULE (00_scope R10); no command and no reset changes it (entry 8). -/
  pfRule : PfRule
  deriving DecidableEq, Repr

/-- The reasons for which the model would stop the machine. There is none: the spec describes the entry of each of the
core's faults (60_exceptions R216), so taking one is a next state (entry 15). -/
inductive Fault where
  deriving DecidableEq, Repr

/-- The reasons for which a command would be refused. -/
inductive Refusal where
  /-- Raised only by an arm of `exec` for a command the model gives no meaning; no arm does. Safe. -/
  | notModelled (mnemonic : String)
  deriving DecidableEq, Repr

/-- The outcome of a command or of a step. -/
abbrev Result := Host.Outcome State Fault Refusal

/-- The table after the reset numbered `n`: 32 draws (10_state R23). Entry 6. -/
def resetTable (n : Nat) : Vector Word 32 := Vector.ofFn fun i => Config.resetLut n i.val

/-- FLAGS after the reset numbered `n`: five draws (10_state R25). Entry 6. -/
def resetFlags (n : Nat) : Flags where
  cf := Config.resetFlag n 0
  pf := Config.resetFlag n 1
  zf := Config.resetFlag n 2
  sf := Config.resetFlag n 3
  ovf := Config.resetFlag n 4

/-- The machine right after reset (70_reset R230): the table and FLAGS are draws, the two validity bits and FAULT_CAUSE are
0, Y and P are not driven, the host has presented nothing. -/
def State.reset : State where
  lut := resetTable 0
  lutValid := false
  flags := resetFlags 0
  flagsValid := false
  faultCause := 0
  port := { word := 0, a := 0, b := 0, c := 0 }
  pending := []
  y := none
  p := none
  draws := 1
  pfRule := .toggleFromZero

end Sys2Proof.Machine
end

