-- ==== Sys2Proof/Machine/Ops.lean ====
section
/-!
DEFINITION. The shared operations over the state: taking a fault and the stop after it, the common checks, driving the
outputs, the draw counter, the bit-position table, presenting a command, and the reset event.
-/
namespace Sys2Proof.Machine

/-! ## Faults -/

/-- The code FAULT_CAUSE holds for a cause (10_state R33). -/
def causeCode : Cause → BitVec 3
  | .illegalCommand => 1
  | .badWidth => 2
  | .badCond => 3
  | .lutUninit => 4
  | .flagsUndefined => 5
  | .lutIndex => 6
  | .shiftRange => 7

/-- After a fault the core is stopped until reset (60_exceptions R219). -/
def stopped (s : State) : Bool := s.faultCause != 0

/-- A command that is not performed, or that drives nothing: no Y and no P (60_exceptions R219). -/
def driveNothing (s : State) : State := { s with y := none, p := none }

/-- Fault entry (60_exceptions R216): the cause is recorded, no Y and no P are driven, nothing else changes. -/
def takeFault (c : Cause) (s : State) : State := { s with faultCause := causeCode c, y := none, p := none }

/-- Step 0 of the order of checks (60_exceptions R220): a stopped core performs nothing. -/
def unlessStopped (s : State) (k : State → State) : State := if stopped s then driveNothing s else k s

/-- Steps 0 and 2 of the order of checks for every command but INIT (60_exceptions R220; the decode checks of step 1 are
the decoder's), then the command's own effect `k`. -/
def perform (s : State) (k : State → State) : Result :=
  .next (unlessStopped s fun s => if s.lutValid then k s else takeFault .lutUninit s)

/-- The checks of INIT: of the state checks only step 0 applies (41_bitpos_lut R102). -/
def performInit (s : State) (k : State → State) : Result := .next (unlessStopped s k)

/-- A word the decoder rejects raises its cause (30_encoding R65), unless the core is stopped. -/
def rejectWord (c : Cause) (s : State) : Result := .next (unlessStopped s (takeFault c))

/-! ## Outputs (30_encoding R63) -/

/-- Drive Y with a word; P is not driven. -/
def driveWord (v : Word) (s : State) : State := { s with y := some v, p := none }

/-- A bit as a word, `zext_32`. -/
def wordOfBit (b : Bool) : Word := if b then 1 else 0

/-- Drive P with a bit and Y with its zero extension (45_flags_predicates R160). -/
def driveBit (b : Bool) (s : State) : State := { s with y := some (wordOfBit b), p := some b }

/-- The output FAULT mirrors FAULT_CAUSE (10_state R36). -/
def faultOutput (s : State) : BitVec 3 := s.faultCause

/-! ## Free draws (00_scope R10) -/

/-- One free value has been taken. -/
def countDraw (s : State) : State := { s with draws := s.draws + 1 }

/-- The UPPER draw of a width-taking command. -/
def drawUpper (site : DrawSite) (w : Width) (s : State) : Word := Config.upper site w s.draws s.port.a s.port.b

/-- The MULDRAW draw of a MUL outside its domain. -/
def drawMul (w : Width) (s : State) : Word := Config.mulDraw w s.draws s.port.a s.port.b

/-- Drive Y with a width-`w` result: at `w < 32` its upper bits took a draw, at 32 none is needed. -/
def driveWidth (w : Width) (v : Word) (s : State) : State :=
  match w with
  | .w8 => driveWord v (countDraw s)
  | .w16 => driveWord v (countDraw s)
  | .w32 => driveWord v s

/-! ## The bit-position table -/

/-- The table INIT writes: entry `i` is `2^i` (41_bitpos_lut R100). -/
def powerTable : Vector Word 32 := Vector.ofFn fun i => BitVec.ofNat 32 (2 ^ i.val)

/-- The internal read port BitPos (41_bitpos_lut R101). No unit uses an index above 31; there the value is 0 (entry 13). -/
def bitPos (lut : Vector Word 32) (i : Nat) : Word := if h : i < 32 then lut[i] else 0

/-- Testing bit `i` of `v` is `(v & BitPos(i)) != 0` (41_bitpos_lut R101). -/
def bitSet (lut : Vector Word 32) (v : Word) (i : Nat) : Bool := v &&& bitPos lut i != 0

/-- INIT's write: all 32 entries and LUT_VALID at once (20_memory R43). -/
def writeTable (s : State) : State := { s with lut := powerTable, lutValid := true }

/-! ## The status register -/

/-- CMP's write: all five flags and FLAGS_VALID at once (45_flags_predicates R159). -/
def writeFlags (f : Flags) (s : State) : State := { s with flags := f, flagsValid := true }

/-! ## The host's inputs -/

/-- The host drives the port with a command, and the rest of its inputs follow. -/
def present (cmd : Command) (rest : List HostInput) (s : State) : State := { s with port := cmd, pending := rest }

/-- The reset event (70_reset R230): the table and FLAGS become fresh draws, the validity bits and FAULT_CAUSE 0, and the
outputs are not driven; what the host drives and the parameter PF_RULE are no state of the core and stay. -/
def resetEvent (rest : List HostInput) (s : State) : State :=
  { s with
    lut := resetTable s.draws
    lutValid := false
    flags := resetFlags s.draws
    flagsValid := false
    faultCause := 0
    pending := rest
    y := none
    p := none
    draws := s.draws + 1 }

end Sys2Proof.Machine
end

