-- ==== Sys2Proof/Machine/Operands.lean ====
section
/-!
DEFINITION. The operand forms: the logical width as a number of bits, the low bits of a word, the splice of a width-`w`
result with the draw of its upper bits, and which ports each command reads.
-/
namespace Sys2Proof.Machine

/-- The number of low-order bits a width selects (00_scope R8). -/
def widthBits : Width → Nat
  | .w8 => 8
  | .w16 => 16
  | .w32 => 32

/-- `lowmask(n) = 2^n - 1` (00_scope R12). -/
def lowMask (n : Nat) : Word := BitVec.ofNat 32 (2 ^ n - 1)

/-- `v mod 2^w` as a word: bits `[w-1:0]` kept, the rest cleared (00_scope R12). -/
def lowBits (w : Width) (v : Word) : Word := v &&& lowMask (widthBits w)

/-- A width-`w` result: bits `[w-1:0]` from `low` and, at `w < 32`, bits `[31:w]` from the draw `up` (43_arith R125). -/
def splice (w : Width) (low up : Word) : Word :=
  match w with
  | .w8 => low &&& lowMask 8 ||| up &&& ~~~lowMask 8
  | .w16 => low &&& lowMask 16 ||| up &&& ~~~lowMask 16
  | .w32 => low

/-- The three operand ports (30_encoding R62). -/
inductive Port where
  | a
  | b
  | c
  deriving DecidableEq, Repr

/-- Which ports a command reads (30_encoding R62). -/
def readsPort : Instr → Port → Bool
  | .sel, _ => true
  | .test _, _ => false
  | .init, _ => false
  | .not, q => q == .a
  | .notb, q => q == .a
  | .neg, q => q == .a
  | .inc, q => q == .a
  | .dec, q => q == .a
  | .lutrd, q => q == .a
  | .nor, q => q != .c
  | .or, q => q != .c
  | .and, q => q != .c
  | .xor, q => q != .c
  | .norb, q => q != .c
  | .orb, q => q != .c
  | .andb, q => q != .c
  | .xorb, q => q != .c
  | .add _, q => q != .c
  | .sub _, q => q != .c
  | .shl _, q => q != .c
  | .cmp _, q => q != .c
  | .mul _, q => q != .c

/-- The same state with another word on one operand port. -/
def withPort (q : Port) (v : Word) (s : State) : State :=
  match q with
  | .a => { s with port := { s.port with a := v } }
  | .b => { s with port := { s.port with b := v } }
  | .c => { s with port := { s.port with c := v } }

end Sys2Proof.Machine
end

