-- ==== Sys2Proof/Machine/Units.lean ====
section
/-!
DEFINITION. The internal units every command is built from: the gate and its compositions on words and on bits, negation
and its bootstrap, selection, the full adder, the ripple-carry adder, the shifter and the multiplier. Each reads the
bit-position table through `bitPos`, as the rules' pseudocode does.
-/
namespace Sys2Proof.Machine

/-! ## The gate (40_gate_logic) -/

/-- The gate primitive: `~(a & b)` (R80; 90_conflicts C1). -/
def nand32 (a b : Word) : Word := ~~~(a &&& b)

/-- NOT from the gate (R82); bit-exact with `~a` (R86), by `gateNot_eq` of Laws/Words. -/
def gateNot (a : Word) : Word := nand32 a a

/-- OR from the gate (R83); bit-exact with `a | b` (R86), by `gateOr_eq` of Laws/Words. -/
def gateOr (a b : Word) : Word := nand32 (nand32 a a) (nand32 b b)

/-- AND from the gate (R84); bit-exact with `a & b` (R86), by `gateAnd_eq` of Laws/Words. -/
def gateAnd (a b : Word) : Word :=
  let t := nand32 a b
  nand32 t t

/-- XOR from the gate (R85); bit-exact with `a ^ b` (R86), by `gateXor_eq` of Laws/Words. -/
def gateXor (a b : Word) : Word := gateOr (gateAnd a (gateNot b)) (gateAnd (gateNot a) b)

/-- The masking step of the boolean variants: bit 0 of the word formula (R90). -/
def maskBit (v : Word) : Word := v &&& 1

/-- The gate on single bits (R80). -/
def nandBit (a b : Bool) : Bool := !(a && b)

/-- NOT on single bits (R82). -/
def notBit (a : Bool) : Bool := nandBit a a

/-- OR on single bits (R83). -/
def orBit (a b : Bool) : Bool := nandBit (nandBit a a) (nandBit b b)

/-- AND on single bits (R84). -/
def andBit (a b : Bool) : Bool := nandBit (nandBit a b) (nandBit a b)

/-- XOR on single bits (R85). -/
def xorBit (a b : Bool) : Bool := orBit (andBit a (notBit b)) (andBit (notBit a) b)

/-! ## Negate, increment, decrement (43_arith) -/

/-- `neg32(a) = not(a) + 1`, modulo `2^32` (R120). -/
def neg32 (a : Word) : Word := gateNot a + 1

/-- `negate(not(a))` (R122). -/
def inc32 (a : Word) : Word := neg32 (gateNot a)

/-- `not(negate(a))` (R123). -/
def dec32 (a : Word) : Word := gateNot (neg32 a)

/-! ## Selection (42_select) -/

/-- The selection mask: 0 decremented to all ones when the condition holds, else 0 (R110). -/
def selMask (c : Word) : Word := if c = 0 then 0 else dec32 0

/-- `selectIf(trueValue, falseValue, condition)` (R111). -/
def selectIf (t f c : Word) : Word :=
  let m := selMask c
  gateOr (gateAnd t m) (gateAnd f (gateNot m))

/-! ## The adder (43_arith) -/

/-- The full adder: sum bit and carry bit (R124). -/
def fullAdd (a b cin : Bool) : Bool × Bool :=
  (xorBit (xorBit a b) cin, orBit (orBit (andBit a b) (andBit a cin)) (andBit b cin))

/-- The ripple-carry loop after `n` iterations, bits 0 to `n-1` done: the result so far and the carry out (R125). -/
def rippleAdd (lut : Vector Word 32) (a b : Word) : Nat → Word × Bool
  | 0 => (0, false)
  | i + 1 =>
    let (r, c) := rippleAdd lut a b i
    let (si, c') := fullAdd (bitSet lut a i) (bitSet lut b i) c
    (if si then r ||| bitPos lut i else r, c')

/-- `add_w(a, b, w)`, its UPPER draw being `up`; the final carry is discarded (R125). -/
def addW (lut : Vector Word 32) (up a b : Word) (w : Width) : Word :=
  splice w (rippleAdd lut a b (widthBits w)).1 up

/-! ## The shifter (44_shift) -/

/-- The shift loop after `n` iterations at the effective amount `e`: bit `i + e` is set where bit `i` of `a` is (R140). -/
def shiftLoop (lut : Vector Word 32) (a : Word) (e : Nat) : Nat → Word
  | 0 => 0
  | i + 1 =>
    let r := shiftLoop lut a e i
    selectIf (r ||| bitPos lut (i + e)) r (a &&& bitPos lut i)

/-- `shl_w(a, amount, w)`, its UPPER draw being `up`; the amount is taken modulo the width (R140). -/
def shlW (lut : Vector Word 32) (up a : Word) (amount : Nat) (w : Width) : Word :=
  let e := amount % widthBits w
  splice w (shiftLoop lut a e (widthBits w - e)) up

/-! ## The multiplier (46_multiply) -/

/-- The native absolute value, read unsigned: the operand's sign is bit 31 (R200). -/
def magnitude (a : Word) : Word := if a.msb then 0 - a else a

/-- The highest `j` below `n` with `u(BitPos(j)) <= u(v)`; the search runs over unsigned words (R200). -/
def highestBelow (lut : Vector Word 32) (v : Word) : Nat → Option Nat
  | 0 => none
  | j + 1 => if (bitPos lut j).toNat ≤ v.toNat then some j else highestBelow lut v j

/-- The multiplier's loop: add `mb` shifted by the highest bit of the remaining `ma`, take that bit off, stop at 0 (R200).
The first argument bounds the iterations: 32 suffice, one for each bit of `ma` (entry 12). -/
def mulLoop (lut : Vector Word 32) (up mb : Word) (w : Width) : Nat → Word → Word → Word
  | 0, _, acc => acc
  | n + 1, ma, acc =>
    if ma = 0 then acc
    else
      match highestBelow lut ma 32 with
      | none => acc
      | some k => mulLoop lut up mb w n (ma - bitPos lut k) (addW lut up acc (shlW lut up mb k w) w)

/-- `mul_w(a, b, w)` (R200): the larger magnitude is scanned, the sign is put back at the end. Its bits `[31:w]` are left to
`execMul`'s draw; `up` is the UPPER draw of the inner adds and shifts (entry 14). -/
def mulW (lut : Vector Word 32) (up a b : Word) (w : Width) : Word :=
  let ma := magnitude a
  let mb := magnitude b
  let acc := if ma.toNat < mb.toNat then mulLoop lut up ma w 32 mb 0 else mulLoop lut up mb w 32 ma 0
  if a.msb ^^ b.msb then neg32 acc else acc

/-- The domain of MUL at a width: at `w < 32` both magnitudes are below `2^w`, at 32 everything (R202). -/
def mulInDomain (a b : Word) (w : Width) : Bool :=
  match w with
  | .w8 => decide ((magnitude a).toNat < 2 ^ 8) && decide ((magnitude b).toNat < 2 ^ 8)
  | .w16 => decide ((magnitude a).toNat < 2 ^ 16) && decide ((magnitude b).toNat < 2 ^ 16)
  | .w32 => true

end Sys2Proof.Machine
end

