-- ==== Sys2Proof/Machine/Arith.lean ====
section
/-!
DEFINITION. The arithmetic unit's commands (43_arith R121-R127): NEG, INC, DEC, ADD, SUB.
-/
namespace Sys2Proof.Machine

/-- NEG (R121). -/
def execNeg (s : State) : Result := perform s fun s => driveWord (neg32 s.port.a) s

/-- INC (R122). -/
def execInc (s : State) : Result := perform s fun s => driveWord (inc32 s.port.a) s

/-- DEC (R123). -/
def execDec (s : State) : Result := perform s fun s => driveWord (dec32 s.port.a) s

/-- ADD (R126). -/
def execAdd (w : Width) (s : State) : Result :=
  perform s fun s => driveWidth w (addW s.lut (drawUpper .add w s) s.port.a s.port.b w) s

/-- SUB: the add of the negated second operand (R127). -/
def execSub (w : Width) (s : State) : Result :=
  perform s fun s => driveWidth w (addW s.lut (drawUpper .sub w s) s.port.a (neg32 s.port.b) w) s

end Sys2Proof.Machine
end

