-- ==== Sys2Proof/Machine/Boolean.lean ====
section
/-!
DEFINITION. The boolean variants (40_gate_logic R90-R95): bit 0 of each word formula, whatever the operands hold (entry 11).
-/
namespace Sys2Proof.Machine

/-- NORB (R91). -/
def execNorb (s : State) : Result := perform s fun s => driveWord (maskBit (nand32 s.port.a s.port.b)) s

/-- NOTB (R92). -/
def execNotb (s : State) : Result := perform s fun s => driveWord (maskBit (gateNot s.port.a)) s

/-- ORB (R93). -/
def execOrb (s : State) : Result := perform s fun s => driveWord (maskBit (gateOr s.port.a s.port.b)) s

/-- ANDB (R94). -/
def execAndb (s : State) : Result := perform s fun s => driveWord (maskBit (gateAnd s.port.a s.port.b)) s

/-- XORB (R95). -/
def execXorb (s : State) : Result := perform s fun s => driveWord (maskBit (gateXor s.port.a s.port.b)) s

end Sys2Proof.Machine
end

