-- ==== Sys2Proof/Machine/Flags.lean ====
section
/-!
DEFINITION. Every flag computation (45_flags_predicates): the comparison scan with the parity rule, the packed layout of
FLAGS, and the thirty condition predicates.
-/
namespace Sys2Proof.Machine

/-! ## The parity rule (R156; 93_implementation_defined I4) -/

/-- PF before the first bit. -/
def pfStart : PfRule → Bool
  | .toggleFromZero => false
  | .toggleFromOne => true
  | .setBelowEight => false
  | .free => false

/-- `PF_RULE_step(PF, SF, i)`. -/
def pfStep (rule : PfRule) (pf sf : Bool) (i : Nat) : Bool :=
  match rule with
  | .toggleFromZero => if sf && decide (i < 8) then !pf else pf
  | .toggleFromOne => if sf && decide (i < 8) then !pf else pf
  | .setBelowEight => if sf then decide (i < 8) else pf
  | .free => pf

/-- PF after the scan: its value there, or, where no reading is taken, the free function of the low operand bits. -/
def pfEnd (rule : PfRule) (scanned : Bool) (a b : Word) (w : Width) : Bool :=
  match rule with
  | .toggleFromZero => scanned
  | .toggleFromOne => scanned
  | .setBelowEight => scanned
  | .free => Config.pfFree w (lowBits w a) (lowBits w b)

/-! ## The scan (R152) -/

/-- What the scan carries from bit to bit: the flags so far, the internal carry, the operand bits last captured. -/
structure Scan where
  flags : Flags
  k : Bool
  topA : Bool
  topB : Bool
  deriving DecidableEq, Repr

/-- The start values (R152). -/
def scanStart (rule : PfRule) : Scan where
  flags := { cf := false, pf := pfStart rule, zf := true, sf := false, ovf := false }
  k := false
  topA := false
  topB := false

/-- The carry flag's two steps, in their order (R153). -/
def cfStep (cf ai bi : Bool) : Bool :=
  let cf := if ai && !bi then false else cf
  if bi && !ai then true else cf

/-- One bit of the scan, its operand bits given (R152). -/
def scanBit (rule : PfRule) (i : Nat) (ai bi nbi : Bool) (z : Scan) : Scan :=
  let (sf, k) := fullAdd ai nbi z.k
  { flags :=
      { cf := cfStep z.flags.cf ai bi
        pf := pfStep rule z.flags.pf sf i
        zf := if sf then false else z.flags.zf
        sf := sf
        ovf := z.flags.ovf }
    k := k
    topA := ai
    topB := bi }

/-- The scan after `n` bits, `nb` being the negated second operand. -/
def scanLoop (rule : PfRule) (lut : Vector Word 32) (a b nb : Word) : Nat → Scan
  | 0 => scanStart rule
  | i + 1 =>
    scanBit rule i (bitSet lut a i) (bitSet lut b i) (bitSet lut nb i) (scanLoop rule lut a b nb i)

/-- The overflow flag, evaluated once after the loop (R157). -/
def overflowOf (z : Scan) : Bool := (!z.topA && z.topB && z.flags.sf) || (z.topA && !z.topB && !z.flags.sf)

/-- `compare(a, b, w)` (R152): `neg32(b)` is computed once, before the scan (R151). -/
def compareW (rule : PfRule) (lut : Vector Word 32) (a b : Word) (w : Width) : Flags :=
  let z := scanLoop rule lut a b (neg32 b) (widthBits w)
  { z.flags with pf := pfEnd rule z.flags.pf a b w, ovf := overflowOf z }

/-- The packed layout of FLAGS on Y: bit 0 CF, 1 PF, 2 ZF, 3 SF, 4 OF, the rest 0 (10_state R26). -/
def packFlags (f : Flags) : Word :=
  wordOfBit f.cf ||| wordOfBit f.pf <<< 1 ||| wordOfBit f.zf <<< 2 ||| wordOfBit f.sf <<< 3 ||| wordOfBit f.ovf <<< 4

/-! ## The thirty predicates -/

/-- `pred_cc` (R161-R190). -/
def condHolds (cc : Cond) (f : Flags) : Bool :=
  match cc with
  | .o => f.ovf
  | .no => !f.ovf
  | .b => f.cf
  | .c => f.cf
  | .nae => f.cf
  | .ae => !f.cf
  | .nb => !f.cf
  | .nc => !f.cf
  | .e => f.zf
  | .z => f.zf
  | .ne => !f.zf
  | .nz => !f.zf
  | .be => f.cf || f.zf
  | .na => f.cf || f.zf
  | .a => !f.cf && !f.zf
  | .nbe => !f.cf && !f.zf
  | .s => f.sf
  | .ns => !f.sf
  | .p => f.pf
  | .pe => f.pf
  | .np => !f.pf
  | .po => !f.pf
  | .l => f.sf ^^ f.ovf
  | .nge => f.sf ^^ f.ovf
  | .ge => !(f.sf ^^ f.ovf)
  | .nl => !(f.sf ^^ f.ovf)
  | .le => f.zf || (f.sf ^^ f.ovf)
  | .ng => f.zf || (f.sf ^^ f.ovf)
  | .g => !f.zf && !(f.sf ^^ f.ovf)
  | .nle => !f.zf && !(f.sf ^^ f.ovf)

end Sys2Proof.Machine
end

