-- ==== Sys2Proof/Machine/Compare.lean ====
section
/-!
DEFINITION. The flags unit's commands (45_flags_predicates R159, R160): CMP and TEST.
-/
namespace Sys2Proof.Machine

/-- CMP: the scan's record goes to FLAGS and, packed, to Y (R159). -/
def execCmp (w : Width) (s : State) : Result :=
  perform s fun s =>
    let r := compareW s.pfRule s.lut s.port.a s.port.b w
    driveWord (packFlags r) (writeFlags r s)

/-- TEST: one predicate of FLAGS to P and Y; before the first CMP it faults FLAGS_UNDEFINED (R160). -/
def execTest (cc : Cond) (s : State) : Result :=
  perform s fun s => if s.flagsValid then driveBit (condHolds cc s.flags) s else takeFault .flagsUndefined s

end Sys2Proof.Machine
end

