-- ==== Sys2Proof/Machine/Logic.lean ====
section
/-!
DEFINITION. The word commands of the logical unit (40_gate_logic R81-R85): NOR, NOT, OR, AND, XOR.
-/
namespace Sys2Proof.Machine

/-- NOR exposes the gate (R81): `~(A & B)`. -/
def execNor (s : State) : Result := perform s fun s => driveWord (nand32 s.port.a s.port.b) s

/-- NOT (R82). -/
def execNot (s : State) : Result := perform s fun s => driveWord (gateNot s.port.a) s

/-- OR (R83). -/
def execOr (s : State) : Result := perform s fun s => driveWord (gateOr s.port.a s.port.b) s

/-- AND (R84). -/
def execAnd (s : State) : Result := perform s fun s => driveWord (gateAnd s.port.a s.port.b) s

/-- XOR (R85). -/
def execXor (s : State) : Result := perform s fun s => driveWord (gateXor s.port.a s.port.b) s

end Sys2Proof.Machine
end

