-- ==== Sys2Proof/Machine/Multiply.lean ====
section
/-!
DEFINITION. The multiplication unit's command (46_multiply R201): MUL.
-/
namespace Sys2Proof.Machine

/-- MUL: inside the domain the multiplier's low bits and the draw of the upper ones, outside it MULDRAW (R201, R202). -/
def execMul (w : Width) (s : State) : Result :=
  perform s fun s =>
    if mulInDomain s.port.a s.port.b w then
      let up := drawUpper .mul w s
      driveWidth w (splice w (mulW s.lut up s.port.a s.port.b w) up) s
    else driveWidth w (drawMul w s) s

end Sys2Proof.Machine
end

