-- ==== Sys2Proof/Machine/Select.lean ====
section
/-!
DEFINITION. The control-selection unit's command (42_select R111): SEL.
-/
namespace Sys2Proof.Machine

/-- SEL: A is the true value, B the false value, C the condition (R111). -/
def execSel (s : State) : Result := perform s fun s => driveWord (selectIf s.port.a s.port.b s.port.c) s

end Sys2Proof.Machine
end

