-- ==== Sys2Proof/Machine/Shift.lean ====
section
/-!
DEFINITION. The shift unit's command (44_shift R141): SHL.
-/
namespace Sys2Proof.Machine

/-- SHL: a negative amount faults SHIFT_RANGE (R141). -/
def execShl (w : Width) (s : State) : Result :=
  perform s fun s =>
    if s.port.b.toInt < 0 then takeFault .shiftRange s
    else driveWidth w (shlW s.lut (drawUpper .shl w s) s.port.a s.port.b.toInt.toNat w) s

end Sys2Proof.Machine
end

