-- ==== Sys2Proof/Machine/Table.lean ====
section
/-!
DEFINITION. The bit-position table's commands (41_bitpos_lut R102, R103): INIT and LUTRD.
-/
namespace Sys2Proof.Machine

/-- LUTRD: an index above 31 faults LUT_INDEX (R103). -/
def execLutrd (s : State) : Result :=
  perform s fun s =>
    if 31 < s.port.a.toNat then takeFault .lutIndex s else driveWord (bitPos s.lut s.port.a.toNat) s

/-- INIT: writes the table and LUT_VALID, drives nothing (R102). -/
def execInit (s : State) : Result := performInit s fun s => driveNothing (writeTable s)

end Sys2Proof.Machine
end

