-- ==== Sys2Proof/Machine/Dispatch.lean ====
section
/-!
DEFINITION. One arm per command.
-/
namespace Sys2Proof.Machine

def exec (i : Instr) (s : State) : Host.Outcome State Fault Refusal :=
  match i with
  | .nor => Sys2Proof.Machine.execNor s
  | .not => Sys2Proof.Machine.execNot s
  | .or => Sys2Proof.Machine.execOr s
  | .and => Sys2Proof.Machine.execAnd s
  | .xor => Sys2Proof.Machine.execXor s
  | .norb => Sys2Proof.Machine.execNorb s
  | .notb => Sys2Proof.Machine.execNotb s
  | .orb => Sys2Proof.Machine.execOrb s
  | .andb => Sys2Proof.Machine.execAndb s
  | .xorb => Sys2Proof.Machine.execXorb s
  | .neg => Sys2Proof.Machine.execNeg s
  | .inc => Sys2Proof.Machine.execInc s
  | .dec => Sys2Proof.Machine.execDec s
  | .sel => Sys2Proof.Machine.execSel s
  | .add w => Sys2Proof.Machine.execAdd w s
  | .sub w => Sys2Proof.Machine.execSub w s
  | .shl w => Sys2Proof.Machine.execShl w s
  | .cmp w => Sys2Proof.Machine.execCmp w s
  | .mul w => Sys2Proof.Machine.execMul w s
  | .test cc => Sys2Proof.Machine.execTest cc s
  | .lutrd => Sys2Proof.Machine.execLutrd s
  | .init => Sys2Proof.Machine.execInit s

end Sys2Proof.Machine
end

