-- ==== Sys2Proof/Machine/Step.lean ====
section
/-!
DEFINITION. One step: the core takes the host's next input. A command is decoded and performed whole (20_memory R45), or
raises its decode fault; a reset puts the core in its reset state; with no input the core is idle (60_exceptions R227).
-/
namespace Sys2Proof.Machine

/-- One step. -/
def step (s : State) : Host.Outcome State Fault Refusal :=
  match s.pending with
  | [] => .next s
  | .reset :: rest => .next (resetEvent rest s)
  | .command cmd :: rest =>
    match decode cmd.word with
    | .op i => exec i (present cmd rest s)
    | .fault c => rejectWord c (present cmd rest s)

/-- The state whose next input is the command word of `nbits` bits with value `w` (every bit above `nbits` is 0), the
operand words being those on the port already. -/
def State.withFetchWord (s : State) (nbits w : Nat) : State :=
  { s with pending := .command { s.port with word := BitVec.ofNat 16 (w % 2 ^ nbits) } :: s.pending }

end Sys2Proof.Machine
end

