-- ==== Sys2Proof/Safety.lean ====
section
/-!
DEFINITION. What claims are stated with: when a command's own effect runs, the invariant every step keeps, what a run
observes and when it ends well (70_reset R240).
-/
namespace Sys2Proof.Machine

/-- A command other than INIT runs its own effect: no fault is recorded and the table is initialized (60_exceptions R220,
steps 0 and 2). -/
def State.Ready (s : State) : Prop := s.faultCause = 0 ∧ s.lutValid = true

/-- Every table entry is the word with only its own bit set (41_bitpos_lut R100). -/
def State.TableSet (s : State) : Prop := ∀ i : Fin 32, s.lut[i] = BitVec.ofNat 32 (2 ^ i.val)

/-- The machine's invariant. -/
structure State.Inv (s : State) : Prop where
  /-- An initialized table holds the powers of two (10_state R23). -/
  table : s.lutValid = true → s.TableSet
  /-- FLAGS is valid only after INIT, since CMP faults before it (60_exceptions R214). -/
  flagsAfterInit : s.flagsValid = true → s.lutValid = true
  /-- A stopped core drives nothing (60_exceptions R216, R219). -/
  faultSilent : s.faultCause ≠ 0 → s.y = none ∧ s.p = none
  /-- Y is P's zero extension wherever P is driven (30_encoding R63). -/
  pOnY : ∀ b, s.p = some b → s.y = some (wordOfBit b)

/-- The state-dependent common checks every command but INIT makes first (60_exceptions R220, steps 0 and 2): a stopped core
performs nothing, and before the first INIT the command faults LUT_UNINIT. -/
def CommonChecks (i : Instr) : Prop :=
  ∀ s : State,
    (s.faultCause ≠ 0 → exec i s = .next { s with y := none, p := none }) ∧
      (s.faultCause = 0 → s.lutValid = false → exec i s = .next { s with faultCause := 4, y := none, p := none })

/-- The two's-complement reading of the low `w` bits of a word, `s_w` (45_flags_predicates R158). -/
def signedLow (w : Width) (v : Word) : Int := (v.setWidth (widthBits w)).toInt

/-- A run ends well only if no fault is recorded at its end (70_reset R240). Only the last cause is read: where the host's
inputs hold a reset, a fault recorded before it is not seen. DESIGN CHOICE, entry 22. -/
def State.EndsWell (s : State) : Prop := s.faultCause = 0

/-- What the host sees of one performed command. -/
structure Observed where
  y : Option Word
  p : Option Bool
  deriving DecidableEq, Repr

/-- What a step from `s` to `t` adds to a run's observation: the outputs of the command, if one was performed. A command that
faulted or was not performed leaves a fault recorded, so it adds nothing (60_exceptions R216, R219). A reset adds nothing and
drops nothing: R240's run is the commands after ONE reset, and for inputs with a reset among them the outputs before and after
it stand in one list. DESIGN CHOICE, entry 22. -/
def observedBy (s t : State) : List Observed :=
  match s.pending with
  | .command _ :: _ => if stopped t then [] else [{ y := t.y, p := t.p }]
  | .reset :: _ => []
  | [] => []

/-- The observation of `n` steps: the outputs of the commands performed, and the final state. It is that of a run as 70_reset
R240 has it where no reset is among the inputs; where one is, see entry 22. -/
def observe : Nat → State → List Observed × State
  | 0, s => ([], s)
  | n + 1, s =>
    match step s with
    | .next t =>
      let (os, e) := observe n t
      (observedBy s t ++ os, e)
    | .fault _ => ([], s)
    | .refused _ => ([], s)

end Sys2Proof.Machine
end

