-- ==== Sys2Proof/Certificates/Slice0/Obligations.lean ====
section
/-!
DEFINITION. The statements for the provers. Each says which sentence of spec/ it formalises. A result statement gives the
WHOLE next state as an update of the state before, so it is at once the command's completion, its result and its frame. Where
a width-`w` result has drawn upper bits, only its low `w` bits are stated, so the statement holds for every draw; `draws` is
the model's own counter and its new value is left open (notes/assumptions/4.md, 7.md).
-/
open Sys2Proof Sys2Proof.Machine

/-! ## Encoding -/

/-- A few words written out from 30_encoding R56-R59 and the verdicts of 95_test_vectors V9. A sanity statement. -/
def Obligations.DecodesTheSpecsWords : Prop :=
  decode 0b0000000000000001 = .op .nor ∧ decode 0b0000000000001001 = .op .andb ∧
  decode 0b0000000000001101 = .op .dec ∧ decode 0b0000000000001110 = .op .sel ∧
  decode 0b0000000000010000 = .op (.add .w8) ∧ decode 0b0000000001010001 = .op (.sub .w16) ∧
  decode 0b0000000010010010 = .op (.shl .w32) ∧ decode 0b0000000001010011 = .op (.cmp .w16) ∧
  decode 0b0000000010010100 = .op (.mul .w32) ∧ decode 0b0000100000011000 = .op (.test .e) ∧
  decode 0b0001110100011000 = .op (.test .nle) ∧ decode 0b0000000000011100 = .op .lutrd ∧
  decode 0b0000000000011111 = .op .init ∧
  decode 0x0000 = .fault .illegalCommand ∧ decode 0x2001 = .fault .illegalCommand ∧
  decode 0x0041 = .fault .illegalCommand ∧ decode 0x00D0 = .fault .badWidth ∧
  decode 0x01D0 = .fault .illegalCommand ∧ decode 0x0058 = .fault .illegalCommand ∧ decode 0x1E18 = .fault .badCond

/-- 30_encoding R65: "Decoding is total on every 16-bit word, and every word gets exactly one verdict: an operation, or the
fault it raises", by the checks of its procedure in their order; an accepted word is the encoding of the operation. Which
operation each accepted op value, width code and condition code names is listed after it (R57-R59). -/
def Obligations.DecodeFollowsTheFieldChecks : Prop :=
  (∀ cmd : CmdWord,
    if cmd.toNat / 2 ^ 13 ≠ 0 then decode cmd = .fault .illegalCommand
    else if cmd.toNat % 2 ^ 6 ∈ [0x10, 0x11, 0x12, 0x13, 0x14] then
      if cmd.toNat / 2 ^ 8 % 2 ^ 5 ≠ 0 then decode cmd = .fault .illegalCommand
      else if cmd.toNat / 2 ^ 6 % 2 ^ 2 = 3 then decode cmd = .fault .badWidth
      else ∃ i, decode cmd = .op i ∧ encode i = cmd
    else if cmd.toNat % 2 ^ 6 = 0x18 then
      if cmd.toNat / 2 ^ 6 % 2 ^ 2 ≠ 0 then decode cmd = .fault .illegalCommand
      else if 30 ≤ cmd.toNat / 2 ^ 8 % 2 ^ 5 then decode cmd = .fault .badCond
      else ∃ i, decode cmd = .op i ∧ encode i = cmd
    else if cmd.toNat % 2 ^ 6 ∈ [1, 2, 3, 4, 5, 6, 7, 8, 9, 0xA, 0xB, 0xC, 0xD, 0xE, 0x1C, 0x1F] then
      if cmd.toNat / 2 ^ 6 % 2 ^ 2 ≠ 0 ∨ cmd.toNat / 2 ^ 8 % 2 ^ 5 ≠ 0 then decode cmd = .fault .illegalCommand
      else ∃ i, decode cmd = .op i ∧ encode i = cmd
    else decode cmd = .fault .illegalCommand) ∧
  (∀ r ∈ [(1, Instr.nor), (2, .not), (3, .or), (4, .and), (5, .xor), (6, .norb), (7, .notb), (8, .orb), (9, .andb),
    (0xA, .xorb), (0xB, .neg), (0xC, .inc), (0xD, .dec), (0xE, .sel), (0x1C, .lutrd), (0x1F, .init)],
    decode (BitVec.ofNat 16 r.1) = .op r.2) ∧
  (∀ r ∈ [(0x10, Instr.add), (0x11, .sub), (0x12, .shl), (0x13, .cmp), (0x14, .mul)],
    ∀ q ∈ [(0, Width.w8), (1, .w16), (2, .w32)], decode (BitVec.ofNat 16 (r.1 + 2 ^ 6 * q.1)) = .op (r.2 q.2)) ∧
  (∀ q ∈ [(0, Cond.o), (1, .no), (2, .b), (3, .c), (4, .nae), (5, .ae), (6, .nb), (7, .nc), (8, .e), (9, .z), (10, .ne),
    (11, .nz), (12, .be), (13, .na), (14, .a), (15, .nbe), (16, .s), (17, .ns), (18, .p), (19, .pe), (20, .np), (21, .po),
    (22, .l), (23, .nge), (24, .ge), (25, .nl), (26, .le), (27, .ng), (28, .g), (29, .nle)],
    decode (BitVec.ofNat 16 (0x18 + 2 ^ 8 * q.1)) = .op (.test q.2))

/-- Decode and encode agree, on every word and every command: a word is accepted as a command exactly when it is that
command's encoding (30_encoding R60: "each legal operation has exactly one spelling per width or condition"). -/
def Obligations.DecodeAcceptsExactlyTheEncodings : Prop :=
  ∀ (cmd : CmdWord) (i : Instr), decode cmd = .op i ↔ cmd = encode i

/-- The declarative requirements on the four fields (30_encoding R57-R61, R66) accept exactly the words the decoding
procedure (R65) accepts. -/
def Obligations.FieldRequirementsMatchTheDecoder : Prop :=
  ∀ cmd : CmdWord, (cmdFields cmd).wellFormed = true ↔ ∃ i, decode cmd = .op i

/-! ## Reset, the port and the step -/

/-- 70_reset R230, on the reset state and on the reset event: the validity bits and FAULT_CAUSE are 0, Y and P are not
driven, what the table and FLAGS hold is left open. That the event keeps the host's inputs, the port and PF_RULE is the
model's choice (notes/assumptions/16.md, and 1.md for the list). -/
def Obligations.ResetClearsTheCore : Prop :=
  (State.reset.lutValid = false ∧ State.reset.flagsValid = false ∧ State.reset.faultCause = 0 ∧ State.reset.y = none ∧
    State.reset.p = none) ∧
  ∀ (s : State) (rest : List HostInput), s.pending = .reset :: rest →
    ∃ t, step s = .next t ∧ t.lutValid = false ∧ t.flagsValid = false ∧ t.faultCause = 0 ∧ t.y = none ∧ t.p = none ∧
      t.pending = rest ∧ t.port = s.port ∧ t.pfRule = s.pfRule

/-- A step runs the command the port's word decodes to, with that command on the port and the rest of the host's inputs
still to come (20_memory R45; the list of inputs is the model's choice, notes/assumptions/1.md, and so is a
stopped core's taking the command, 18.md). -/
def Obligations.StepRunsTheDecodedCommand : Prop :=
  ∀ (s : State) (cmd : Command) (rest : List HostInput) (i : Instr),
    s.pending = .command cmd :: rest → decode cmd.word = .op i →
    step s = exec i { s with port := cmd, pending := rest }

/-- A word the decoder rejects takes its fault: the code of its cause goes to FAULT_CAUSE, Y and P are not driven, nothing
else of the core changes (60_exceptions R211-R213, R216); the host's list is the model's choice (notes/assumptions/1.md). -/
def Obligations.RejectedWordTakesItsFault : Prop :=
  ∀ (s : State) (cmd : Command) (rest : List HostInput), s.pending = .command cmd :: rest → s.faultCause = 0 →
    (decode cmd.word = .fault .illegalCommand →
      step s = .next { s with port := cmd, pending := rest, faultCause := 1, y := none, p := none }) ∧
    (decode cmd.word = .fault .badWidth →
      step s = .next { s with port := cmd, pending := rest, faultCause := 2, y := none, p := none }) ∧
    (decode cmd.word = .fault .badCond →
      step s = .next { s with port := cmd, pending := rest, faultCause := 3, y := none, p := none })

/-- 60_exceptions R227: "Between commands it is idle and holds its state." That an idle core's step is a
step, and keeps what Y and P show, is the model's choice (notes/assumptions/2.md, 3.md). -/
def Obligations.IdleCoreHoldsItsState : Prop := ∀ s : State, s.pending = [] → step s = .next s

/-- A run never stops early, and each step takes exactly one of the host's inputs, if there is one. That commands are performed
one at a time in the host's order is 20_memory R45; the rest is the model's choice: the list itself (notes/assumptions/1.md), the
idle step at its end (3.md), faults as next states (15.md), a reset that keeps the rest of the list (16.md), and a stopped core
that takes a command it does not perform (18.md). -/
def Obligations.RunTakesOneInputAStep : Prop :=
  ∀ (n : Nat) (s : State), ∃ t : State, Host.Core.run Sys2Proof.core n s = .next t ∧ t.pending = s.pending.drop n

/-! ## The invariant -/

/-- The invariant holds after reset. -/
def Obligations.ResetMeetsTheInvariant : Prop := State.reset.Inv

/-- Every step, whatever the host presents, keeps the invariant: an initialized table holds the powers of two (10_state R23),
FLAGS is valid only after INIT, a stopped core drives nothing, Y is P's zero extension wherever P is driven. -/
def Obligations.EveryStepKeepsTheInvariant : Prop := ∀ s t : State, s.Inv → step s = .next t → t.Inv

/-! ## Faults -/

/-- The rule of 60_exceptions section 3 "While FAULT_CAUSE != 0, a command presented on the port is not performed", with what
the model settles: that the stopped core takes the command from the host's list and shows it on the port is the model's choice
(notes/assumptions/18.md, and 1.md for the list). The command changes no element of the state, drives no Y or P, raises no
second fault; only reset returns FAULT_CAUSE to 0; the faulted state is no good end. -/
def Obligations.StoppedCorePerformsNothing : Prop :=
  ∀ s : State, s.faultCause ≠ 0 →
    (∀ (cmd : Command) (rest : List HostInput), s.pending = .command cmd :: rest →
      step s = .next { s with port := cmd, pending := rest, y := none, p := none }) ∧
    (∀ t, step s = .next t → t.faultCause = 0 → ∃ rest, s.pending = .reset :: rest) ∧
    (∀ rest, s.pending = .reset :: rest → ∃ t, step s = .next t ∧ t.faultCause = 0) ∧ ¬s.EndsWell

/-- A run from a stopped core with no reset among the host's inputs ends stopped with the first cause, its table, FLAGS and
validity bits as they were, and observes no output (60_exceptions R219, 70_reset R240). The host's list and what a run
observes of it are the model's choice (notes/assumptions/1.md, 20.md). -/
def Obligations.FaultIsStickyOverARun : Prop :=
  ∀ (n : Nat) (s : State), s.faultCause ≠ 0 → .reset ∉ s.pending →
    ∃ t : State, observe n s = ([], t) ∧ t.faultCause = s.faultCause ∧ t.lut = s.lut ∧ t.lutValid = s.lutValid ∧
      t.flags = s.flags ∧ t.flagsValid = s.flagsValid ∧ ¬t.EndsWell

/-- 60_exceptions R216: a command that raises a fault records the cause and changes nothing else, with no Y and no P: said of
every command's own fault, and of a step, whatever its word, whose command faults. That the step takes the command from the
host's list and shows it on the port is the model's choice (notes/assumptions/1.md). -/
def Obligations.FaultChangesOnlyTheCause : Prop :=
  (∀ (i : Instr) (s t : State), s.faultCause = 0 → exec i s = .next t → t.faultCause ≠ 0 →
    t = { s with faultCause := t.faultCause, y := none, p := none }) ∧
  ∀ (s t : State) (cmd : Command) (rest : List HostInput), s.pending = .command cmd :: rest → s.faultCause = 0 →
    step s = .next t → t.faultCause ≠ 0 →
    t = { s with port := cmd, pending := rest, faultCause := t.faultCause, y := none, p := none }

/-- 60_exceptions R214: LUT_UNINIT (code 4) is "raised by every command other than INIT while LUT_VALID = 0". -/
def Obligations.EveryCommandButInitNeedsTheTable : Prop :=
  ∀ (i : Instr) (s : State), i ≠ .init → s.faultCause = 0 → s.lutValid = false →
    exec i s = .next { s with faultCause := 4, y := none, p := none }

/-- 60_exceptions R215: FLAGS_UNDEFINED (code 5) is raised by TEST while FLAGS_VALID = 0. -/
def Obligations.TestNeedsACompare : Prop :=
  ∀ (cc : Cond) (s : State), s.Ready → s.flagsValid = false →
    exec (.test cc) s = .next { s with faultCause := 5, y := none, p := none }

/-- 60_exceptions R217: LUT_INDEX (code 6) is raised by LUTRD when the index is above 31. -/
def Obligations.LutrdIndexAbove31Faults : Prop :=
  ∀ s : State, s.Ready → 31 < s.port.a.toNat →
    exec .lutrd s = .next { s with faultCause := 6, y := none, p := none }

/-- 60_exceptions R218: SHIFT_RANGE (code 7) is raised by SHL when the amount is negative. -/
def Obligations.NegativeShiftAmountFaults : Prop :=
  ∀ (w : Width) (s : State), s.Ready → s.port.b.toInt < 0 →
    exec (.shl w) s = .next { s with faultCause := 7, y := none, p := none }

/-- The order of checks of 60_exceptions section 3: one command reports one cause at most, the first whose condition holds, in
the order: stopped, the decode checks (of which `rsv`, for width operations `cc` before `w = 11`, for TEST `w` before `cc` 30 and
31 are said here, and the whole chain in DecodeFollowsTheFieldChecks), LUT_UNINIT, FLAGS_UNDEFINED, LUT_INDEX, SHIFT_RANGE; where
none holds no fault is recorded. That a step takes the command from the host's list, a stopped core's too, and shows it on the
port is the model's choice (notes/assumptions/1.md, 18.md). -/
def Obligations.ChecksAreMadeInOrder : Prop :=
  (∀ cmd : CmdWord,
    (cmd.toNat / 2 ^ 13 ≠ 0 → decode cmd = .fault .illegalCommand) ∧
    (cmd.toNat % 2 ^ 6 ∈ [0x10, 0x11, 0x12, 0x13, 0x14] → cmd.toNat / 2 ^ 8 ≠ 0 → decode cmd = .fault .illegalCommand) ∧
    (cmd.toNat % 2 ^ 6 = 0x18 → cmd.toNat / 2 ^ 6 % 2 ^ 2 ≠ 0 → decode cmd = .fault .illegalCommand)) ∧
  ∀ (s : State) (cmd : Command) (rest : List HostInput), s.pending = .command cmd :: rest →
    (s.faultCause ≠ 0 → step s = .next { s with port := cmd, pending := rest, y := none, p := none }) ∧
    (s.faultCause = 0 →
      (∀ c, decode cmd.word = .fault c →
        step s = .next { s with port := cmd, pending := rest, faultCause := causeCode c, y := none, p := none }) ∧
      ∀ i, decode cmd.word = .op i →
        if i ≠ .init ∧ s.lutValid = false then
          step s = .next { s with port := cmd, pending := rest, faultCause := 4, y := none, p := none }
        else if (i matches .test _) ∧ s.flagsValid = false then
          step s = .next { s with port := cmd, pending := rest, faultCause := 5, y := none, p := none }
        else if i = .lutrd ∧ 31 < cmd.a.toNat then
          step s = .next { s with port := cmd, pending := rest, faultCause := 6, y := none, p := none }
        else if (i matches .shl _) ∧ cmd.b.toInt < 0 then
          step s = .next { s with port := cmd, pending := rest, faultCause := 7, y := none, p := none }
        else ∃ t, step s = .next t ∧ t.faultCause = 0)

/-! ## What every command leaves alone -/

/-- 10_state R34, which the spec marks derived: which command writes which element. Only INIT writes LUT and LUT_VALID; only CMP
writes FLAGS and FLAGS_VALID; FAULT_CAUSE changes only from 0. No command changes the port, the host's inputs or PF_RULE, which
the model holds in State by its own choice (notes/assumptions/1.md, 8.md, 10.md). -/
def Obligations.CommandsWriteOnlyTheirElements : Prop :=
  ∀ (i : Instr) (s t : State), exec i s = .next t →
    t.port = s.port ∧ t.pending = s.pending ∧ t.pfRule = s.pfRule ∧
    (i ≠ .init → t.lut = s.lut ∧ t.lutValid = s.lutValid) ∧
    (¬(i matches .cmp _) → t.flags = s.flags ∧ t.flagsValid = s.flagsValid) ∧
    (s.faultCause ≠ 0 → t.faultCause = s.faultCause)

/-- 30_encoding R63: of a command performed without a fault, every one but INIT drives Y; TEST also drives P, and Y with its
zero extension; CMP drives Y with the packed flags (10_state R26); INIT drives neither; a command that faults drives neither,
a word the decoder rejects included. -/
def Obligations.OutputsOfEveryCommand : Prop :=
  (∀ (s : State) (cmd : Command) (rest : List HostInput) (c : Cause), s.pending = .command cmd :: rest →
    decode cmd.word = .fault c → ∃ t, step s = .next t ∧ t.y = none ∧ t.p = none) ∧
  ∀ (i : Instr) (s t : State), s.faultCause = 0 → exec i s = .next t →
    if t.faultCause ≠ 0 then t.y = none ∧ t.p = none
    else
      match i with
      | .init => t.y = none ∧ t.p = none
      | .test _ => ∃ b : Bool, t.p = some b ∧ t.y = some (if b then 1 else 0)
      | .cmp _ =>
        t.p = none ∧ ∃ v : Word, t.y = some v ∧
          v.toNat = t.flags.cf.toNat + 2 * t.flags.pf.toNat + 4 * t.flags.zf.toNat + 8 * t.flags.sf.toNat +
            16 * t.flags.ovf.toNat
      | _ => t.p = none ∧ ∃ v : Word, t.y = some v

/-- 30_encoding R62: "A port marked "-" is ignored: its value has no effect on any output or state." The two executions are
said to answer the whole of Y equal: at widths 8 and 16, and for MUL outside its domain, that rests on UPPER and MULDRAW being
equal in both, and equal draws are the model's choice (notes/assumptions/4.md, 5.md). -/
def Obligations.IgnoredPortsHaveNoEffect : Prop :=
  ∀ (i : Instr) (q : Port) (v : Word) (s : State), readsPort i q = false →
    ∃ t, exec i s = .next t ∧ exec i (withPort q v s) = .next (withPort q v t)

/-- 10_state R25: only TEST reads FLAGS. With other flags every other command gives the same outputs, the same fault and the
same state but for FLAGS itself, which CMP writes the same and the others leave as they were. Y is said equal whole: at widths 8
and 16, and for MUL outside its domain, that rests on UPPER and MULDRAW being equal in both executions, and equal draws are the
model's choice (notes/assumptions/4.md, 5.md). -/
def Obligations.OnlyTestReadsFlags : Prop :=
  ∀ (i : Instr) (f : Flags) (s : State), ¬(i matches .test _) →
    ∃ t, exec i s = .next t ∧
      (exec i { s with flags := f } = .next t ∨ exec i { s with flags := f } = .next { t with flags := f })

/-- 10_state R23 and R25: what the table and FLAGS hold before their first write is unobservable. Whatever the host presents,
the outputs of the commands performed and the recorded fault are the same whatever they hold. The two runs take equal draws,
which is the model's choice: UPPER bits and MULDRAW words in the outputs (notes/assumptions/4.md, 5.md; 70_reset R240 says that no
claim reads them) and the contents after a later reset (6.md). That outputs before and after a reset stand in one list is the
model's choice too (22.md). -/
def Obligations.ContentsBeforeFirstWriteAreUnobservable : Prop :=
  ∀ (n : Nat) (s : State) (l : Vector Word 32) (f : Flags), s.lutValid = false → s.flagsValid = false →
    (observe n { s with lut := l, flags := f }).1 = (observe n s).1 ∧
      (observe n { s with lut := l, flags := f }).2.faultCause = (observe n s).2.faultCause

/-! ## The gate and the logical unit -/

/-- 40_gate_logic R81-R85: the word commands are the native operations on all 32 bits (NOR is `~(A & B)`, R80). -/
def Obligations.WordLogicResults : Prop :=
  (decode 0x0001 = .op .nor ∧ decode 0x0002 = .op .not ∧ decode 0x0003 = .op .or ∧ decode 0x0004 = .op .and ∧
    decode 0x0005 = .op .xor) ∧
  (CommonChecks .nor ∧ CommonChecks .not ∧ CommonChecks .or ∧ CommonChecks .and ∧ CommonChecks .xor) ∧
  ∀ s : State, s.Ready →
    exec .nor s = .next { s with y := some (~~~(s.port.a &&& s.port.b)), p := none } ∧
    exec .not s = .next { s with y := some (~~~s.port.a), p := none } ∧
    exec .or s = .next { s with y := some (s.port.a ||| s.port.b), p := none } ∧
    exec .and s = .next { s with y := some (s.port.a &&& s.port.b), p := none } ∧
    exec .xor s = .next { s with y := some (s.port.a ^^^ s.port.b), p := none }

/-- 40_gate_logic R90-R95: each boolean variant's result is bit 0 of the word formula, that is, the formula on bits 0 of the
operands, zero-extended. -/
def Obligations.BooleanLogicResults : Prop :=
  (decode 0x0006 = .op .norb ∧ decode 0x0007 = .op .notb ∧ decode 0x0008 = .op .orb ∧ decode 0x0009 = .op .andb ∧
    decode 0x000A = .op .xorb) ∧
  (CommonChecks .norb ∧ CommonChecks .notb ∧ CommonChecks .orb ∧ CommonChecks .andb ∧ CommonChecks .xorb) ∧
  ∀ s : State, s.Ready →
    exec .norb s = .next { s with y := some (if s.port.a.getLsbD 0 && s.port.b.getLsbD 0 then 0 else 1), p := none } ∧
    exec .notb s = .next { s with y := some (if s.port.a.getLsbD 0 then 0 else 1), p := none } ∧
    exec .orb s = .next { s with y := some (if s.port.a.getLsbD 0 || s.port.b.getLsbD 0 then 1 else 0), p := none } ∧
    exec .andb s = .next { s with y := some (if s.port.a.getLsbD 0 && s.port.b.getLsbD 0 then 1 else 0), p := none } ∧
    exec .xorb s = .next { s with y := some (if s.port.a.getLsbD 0 ^^ s.port.b.getLsbD 0 then 1 else 0), p := none }

/-! ## The bit-position table -/

/-- 41_bitpos_lut R100, R102: INIT writes `2^i` to every entry and sets LUT_VALID, drives no Y and no P, and changes nothing
else; it needs no initialized table, and a stopped core does not perform it. -/
def Obligations.InitWritesThePowersOfTwo : Prop :=
  decode 0x001F = .op .init ∧
  ∀ s : State,
    (s.faultCause ≠ 0 → exec .init s = .next { s with y := none, p := none }) ∧
    (s.faultCause = 0 → ∃ l : Vector Word 32, (∀ i : Fin 32, l[i] = BitVec.ofNat 32 (2 ^ i.val)) ∧
      exec .init s = .next { s with lut := l, lutValid := true, y := none, p := none })

/-- 95_test_vectors E8: a second INIT changes nothing (41_bitpos_lut R102, 90_conflicts C5). -/
def Obligations.InitIsIdempotent : Prop :=
  ∀ s : State, s.faultCause = 0 → ∃ t, exec .init s = .next t ∧ exec .init t = .next t

/-- 41_bitpos_lut R103: LUTRD gives entry `A` for an index up to 31, and faults LUT_INDEX above; under the invariant the entry
is `2^A` (R100). -/
def Obligations.LutrdReadsTheEntry : Prop :=
  decode 0x001C = .op .lutrd ∧ CommonChecks .lutrd ∧
  ∀ s : State, s.Ready →
    (∀ h : s.port.a.toNat < 32, exec .lutrd s = .next { s with y := some s.lut[s.port.a.toNat], p := none }) ∧
    (s.Inv → s.port.a.toNat ≤ 31 →
      exec .lutrd s = .next { s with y := some (BitVec.ofNat 32 (2 ^ s.port.a.toNat)), p := none }) ∧
    (31 < s.port.a.toNat → exec .lutrd s = .next { s with faultCause := 6, y := none, p := none })

/-- 41_bitpos_lut R104, which the spec marks derived: "after one INIT and any commands that do not fault, LUTRD i returns 2^i for every i in 0..31", from
any state that is not stopped, whatever its table holds and whatever the host's list holds after that LUTRD (the list is the
model's choice, notes/assumptions/1.md). -/
def Obligations.LutrdAfterInitAndAnyCommands : Prop :=
  ∀ (s t : State) (a b c : Word) (cmds : List Command) (i j k : Word) (rest : List HostInput), s.faultCause = 0 →
    s.pending = .command ⟨0x001F, a, b, c⟩ :: cmds.map .command ++ .command ⟨0x001C, i, j, k⟩ :: rest →
    Host.Core.run Sys2Proof.core (cmds.length + 1) s = .next t → t.faultCause = 0 → i.toNat ≤ 31 →
    ∃ u, step t = .next u ∧ u.y = some (BitVec.ofNat 32 (2 ^ i.toNat)) ∧ u.faultCause = 0

/-! ## Selection -/

/-- 42_select R110, R111: SEL gives A when C is not 0, any such C, else B. -/
def Obligations.SelChoosesByTheCondition : Prop :=
  decode 0x000E = .op .sel ∧ CommonChecks .sel ∧
  ∀ s : State, s.Ready →
    exec .sel s = .next { s with y := some (if s.port.c ≠ 0 then s.port.a else s.port.b), p := none }

/-! ## Arithmetic -/

/-- 43_arith R121-R123: NEG, INC and DEC modulo `2^32`. -/
def Obligations.NegIncDecResults : Prop :=
  (decode 0x000B = .op .neg ∧ decode 0x000C = .op .inc ∧ decode 0x000D = .op .dec) ∧
  (CommonChecks .neg ∧ CommonChecks .inc ∧ CommonChecks .dec) ∧
  ∀ s : State, s.Ready →
    exec .neg s = .next { s with y := some (-s.port.a), p := none } ∧
    exec .inc s = .next { s with y := some (s.port.a + 1), p := none } ∧
    exec .dec s = .next { s with y := some (s.port.a - 1), p := none }

/-- 43_arith R126: `Y[w-1:0] = (A + B) mod 2^w`, and at width 32 the whole of Y. -/
def Obligations.AddIsAdditionModuloTheWidth : Prop :=
  (decode 0x0010 = .op (.add .w8) ∧ decode 0x0050 = .op (.add .w16) ∧ decode 0x0090 = .op (.add .w32) ∧
    decode 0x00D0 = .fault .badWidth) ∧
  ∀ w : Width, CommonChecks (.add w) ∧
    ∀ s : State, s.Ready → s.Inv → ∃ (v : Word) (n : Nat),
      exec (.add w) s = .next { s with y := some v, p := none, draws := n } ∧
      v.toNat % 2 ^ widthBits w = (s.port.a.toNat + s.port.b.toNat) % 2 ^ widthBits w ∧
      (w = .w32 → v = s.port.a + s.port.b)

/-- 43_arith R127: `Y[w-1:0] = (A - B) mod 2^w`, and at width 32 the whole of Y. -/
def Obligations.SubIsSubtractionModuloTheWidth : Prop :=
  (decode 0x0011 = .op (.sub .w8) ∧ decode 0x0051 = .op (.sub .w16) ∧ decode 0x0091 = .op (.sub .w32) ∧
    decode 0x00D1 = .fault .badWidth) ∧
  ∀ w : Width, CommonChecks (.sub w) ∧
    ∀ s : State, s.Ready → s.Inv → ∃ (v : Word) (n : Nat),
      exec (.sub w) s = .next { s with y := some v, p := none, draws := n } ∧
      (v.toNat : Int) % 2 ^ widthBits w = ((s.port.a.toNat : Int) - s.port.b.toNat) % 2 ^ widthBits w ∧
      (w = .w32 → v = s.port.a - s.port.b)

/-! ## Shift -/

/-- 44_shift R141: `Y[w-1:0] = (A << (s(B) mod w)) mod 2^w` for an amount that is not negative, and at width 32 the whole of
Y; a negative amount faults SHIFT_RANGE. -/
def Obligations.ShlShiftsByTheAmountModuloTheWidth : Prop :=
  (decode 0x0012 = .op (.shl .w8) ∧ decode 0x0052 = .op (.shl .w16) ∧ decode 0x0092 = .op (.shl .w32) ∧
    decode 0x00D2 = .fault .badWidth) ∧
  ∀ w : Width, CommonChecks (.shl w) ∧
    ∀ s : State, s.Ready → s.Inv →
      (s.port.b.toInt < 0 → exec (.shl w) s = .next { s with faultCause := 7, y := none, p := none }) ∧
      (0 ≤ s.port.b.toInt → ∃ (v : Word) (n : Nat),
        exec (.shl w) s = .next { s with y := some v, p := none, draws := n } ∧
        v.toNat % 2 ^ widthBits w = s.port.a.toNat * 2 ^ (s.port.b.toNat % widthBits w) % 2 ^ widthBits w ∧
        (w = .w32 → v = s.port.a <<< (s.port.b.toNat % 32)))

/-- 44_shift R142, which the spec marks derived: the wraparound law, for every amount that is not negative, and the identity law, both on the low `w` bits. -/
def Obligations.ShlWraparoundAndIdentity : Prop :=
  ∀ (w : Width) (k : Word) (s : State), s.Ready → s.Inv → 0 ≤ k.toInt → ∃ t u z vt vu vz,
    exec (.shl w) (withPort .b k s) = .next t ∧ t.y = some vt ∧
    exec (.shl w) (withPort .b (BitVec.ofNat 32 (k.toNat % widthBits w)) s) = .next u ∧ u.y = some vu ∧
    exec (.shl w) (withPort .b 0 s) = .next z ∧ z.y = some vz ∧
    vt.toNat % 2 ^ widthBits w = vu.toNat % 2 ^ widthBits w ∧
    vz.toNat % 2 ^ widthBits w = s.port.a.toNat % 2 ^ widthBits w

/-! ## Flags, comparison, predicates -/

/-- 45_flags_predicates R159: CMP writes all five flags and FLAGS_VALID and drives Y with the packed record. What the scan
leaves in each flag is said in its own rule's words: CF by the highest bit below `w` where the operands differ (R153), SF bit
`w-1` of the difference (R154), ZF whether no bit of it below `w` is set (R155), OF from the operands' top bits and SF (R157),
PF under the spec's default reading, its decision D12 (R156). -/
def Obligations.CmpSetsTheFlags : Prop :=
  (decode 0x0013 = .op (.cmp .w8) ∧ decode 0x0053 = .op (.cmp .w16) ∧ decode 0x0093 = .op (.cmp .w32) ∧
    decode 0x00D3 = .fault .badWidth) ∧
  ∀ w : Width, CommonChecks (.cmp w) ∧
    ∀ s : State, s.Ready → s.Inv → ∃ (f : Flags) (v : Word),
      exec (.cmp w) s = .next { s with flags := f, flagsValid := true, y := some v, p := none } ∧
      v.toNat = f.cf.toNat + 2 * f.pf.toNat + 4 * f.zf.toNat + 8 * f.sf.toNat + 16 * f.ovf.toNat ∧
      (f.cf = true ↔ ∃ i < widthBits w, s.port.b.getLsbD i = true ∧ s.port.a.getLsbD i = false ∧
        ∀ j < widthBits w, i < j → s.port.a.getLsbD j = s.port.b.getLsbD j) ∧
      f.sf = (s.port.a - s.port.b).getLsbD (widthBits w - 1) ∧
      (f.zf = true ↔ ∀ i < widthBits w, (s.port.a - s.port.b).getLsbD i = false) ∧
      (f.ovf = true ↔
        (s.port.a.getLsbD (widthBits w - 1) = false ∧ s.port.b.getLsbD (widthBits w - 1) = true ∧ f.sf = true) ∨
        (s.port.a.getLsbD (widthBits w - 1) = true ∧ s.port.b.getLsbD (widthBits w - 1) = false ∧ f.sf = false)) ∧
      (s.pfRule = .toggleFromZero →
        f.pf = ((s.port.a - s.port.b).getLsbD 0 ^^ (s.port.a - s.port.b).getLsbD 1 ^^
          (s.port.a - s.port.b).getLsbD 2 ^^ (s.port.a - s.port.b).getLsbD 3 ^^ (s.port.a - s.port.b).getLsbD 4 ^^
          (s.port.a - s.port.b).getLsbD 5 ^^ (s.port.a - s.port.b).getLsbD 6 ^^ (s.port.a - s.port.b).getLsbD 7))

/-- The closed forms of the scan, 45_flags_predicates R158, which the spec marks derived: CF the unsigned borrow, ZF and SF of
the difference modulo `2^w`, OF the signed overflow, and `SF ^ OF` the signed order. -/
def Obligations.CmpClosedForms : Prop :=
  ∀ (w : Width) (s : State), s.Ready → s.Inv → ∃ t, exec (.cmp w) s = .next t ∧
    t.flags.cf = decide (s.port.a.toNat % 2 ^ widthBits w < s.port.b.toNat % 2 ^ widthBits w) ∧
    t.flags.zf = decide ((s.port.a - s.port.b).toNat % 2 ^ widthBits w = 0) ∧
    t.flags.sf = (s.port.a - s.port.b).getLsbD (widthBits w - 1) ∧
    t.flags.ovf = ((s.port.a.getLsbD (widthBits w - 1) != s.port.b.getLsbD (widthBits w - 1)) &&
      ((s.port.a - s.port.b).getLsbD (widthBits w - 1) != s.port.a.getLsbD (widthBits w - 1))) ∧
    (t.flags.sf ^^ t.flags.ovf) = decide (signedLow w s.port.a < signedLow w s.port.b)

/-- 93_implementation_defined I4: PF under the other readings the words admit: (b) the negation of (a); (c) the difference is
not 0 and below 256. The readings are a parameter of the model (notes/assumptions/8.md). -/
def Obligations.OtherParityReadings : Prop :=
  ∀ (w : Width) (s : State), s.Ready → s.Inv → ∃ (f g h : Flags) (t u v : State),
    exec (.cmp w) { s with pfRule := .toggleFromZero } = .next t ∧ t.flags = f ∧
    exec (.cmp w) { s with pfRule := .toggleFromOne } = .next u ∧ u.flags = g ∧
    exec (.cmp w) { s with pfRule := .setBelowEight } = .next v ∧ v.flags = h ∧
    g = { f with pf := !f.pf } ∧
    h = { f with pf := decide ((s.port.a - s.port.b).toNat % 2 ^ widthBits w ≠ 0 ∧
      (s.port.a - s.port.b).toNat % 2 ^ widthBits w < 256) }

/-- 45_flags_predicates R150 and 70_reset R237: CMP reads only bits `[w-1:0]` of its operands, under every parity rule. -/
def Obligations.CmpIgnoresBitsAboveTheWidth : Prop :=
  ∀ (w : Width) (a b : Word) (s : State), s.Ready → s.Inv →
    s.port.a.toNat % 2 ^ widthBits w = a.toNat % 2 ^ widthBits w →
    s.port.b.toNat % 2 ^ widthBits w = b.toNat % 2 ^ widthBits w →
    ∃ t u, exec (.cmp w) s = .next t ∧ exec (.cmp w) (withPort .a a (withPort .b b s)) = .next u ∧
      u.flags = t.flags ∧ u.y = t.y

/-- The nine predicates whose formulas the source gives (45_flags_predicates R161, R164, R169, R171, R175, R177, R179, R185,
R189), each with its word, and what TEST drives. -/
def Obligations.PredicatesTheSourceGives : Prop :=
  (decode 0x0018 = .op (.test .o) ∧ decode 0x0318 = .op (.test .c) ∧ decode 0x0818 = .op (.test .e) ∧
    decode 0x0A18 = .op (.test .ne) ∧ decode 0x0E18 = .op (.test .a) ∧ decode 0x1018 = .op (.test .s) ∧
    decode 0x1218 = .op (.test .p) ∧ decode 0x1818 = .op (.test .ge) ∧ decode 0x1C18 = .op (.test .g)) ∧
  ∀ s : State, s.Ready → s.flagsValid = true →
    exec (.test .o) s = .next (driveBit s.flags.ovf s) ∧
    exec (.test .c) s = .next (driveBit s.flags.cf s) ∧
    exec (.test .e) s = .next (driveBit s.flags.zf s) ∧
    exec (.test .ne) s = .next (driveBit (!s.flags.zf) s) ∧
    exec (.test .a) s = .next (driveBit (!s.flags.cf && !s.flags.zf) s) ∧
    exec (.test .s) s = .next (driveBit s.flags.sf s) ∧
    exec (.test .p) s = .next (driveBit s.flags.pf s) ∧
    exec (.test .ge) s = .next (driveBit (!(s.flags.sf ^^ s.flags.ovf)) s) ∧
    exec (.test .g) s = .next (driveBit (!s.flags.zf && !(s.flags.sf ^^ s.flags.ovf)) s)

/-- Of the 21 predicates the spec supplies from general knowledge (its decision D32; 45_flags_predicates R162-R190, each
marked), those that read no SF and no PF, each with its word, and what TEST drives. -/
def Obligations.SuppliedUnsignedPredicates : Prop :=
  (decode 0x0118 = .op (.test .no) ∧ decode 0x0218 = .op (.test .b) ∧ decode 0x0418 = .op (.test .nae) ∧
    decode 0x0518 = .op (.test .ae) ∧ decode 0x0618 = .op (.test .nb) ∧ decode 0x0718 = .op (.test .nc) ∧
    decode 0x0918 = .op (.test .z) ∧ decode 0x0B18 = .op (.test .nz) ∧ decode 0x0C18 = .op (.test .be) ∧
    decode 0x0D18 = .op (.test .na) ∧ decode 0x0F18 = .op (.test .nbe)) ∧
  ∀ s : State, s.Ready → s.flagsValid = true →
    (∀ cc ∈ [Cond.no], exec (.test cc) s = .next (driveBit (!s.flags.ovf) s)) ∧
    (∀ cc ∈ [Cond.b, .nae], exec (.test cc) s = .next (driveBit s.flags.cf s)) ∧
    (∀ cc ∈ [Cond.ae, .nb, .nc], exec (.test cc) s = .next (driveBit (!s.flags.cf) s)) ∧
    (∀ cc ∈ [Cond.z], exec (.test cc) s = .next (driveBit s.flags.zf s)) ∧
    (∀ cc ∈ [Cond.nz], exec (.test cc) s = .next (driveBit (!s.flags.zf) s)) ∧
    (∀ cc ∈ [Cond.be, .na], exec (.test cc) s = .next (driveBit (s.flags.cf || s.flags.zf) s)) ∧
    (∀ cc ∈ [Cond.nbe], exec (.test cc) s = .next (driveBit (!s.flags.cf && !s.flags.zf) s))

/-- The others of the 21 supplied predicates (decision D32), which read SF or PF, each with its word, and what TEST drives. -/
def Obligations.SuppliedSignAndParityPredicates : Prop :=
  (decode 0x1118 = .op (.test .ns) ∧ decode 0x1318 = .op (.test .pe) ∧ decode 0x1418 = .op (.test .np) ∧
    decode 0x1518 = .op (.test .po) ∧ decode 0x1618 = .op (.test .l) ∧ decode 0x1718 = .op (.test .nge) ∧
    decode 0x1918 = .op (.test .nl) ∧ decode 0x1A18 = .op (.test .le) ∧ decode 0x1B18 = .op (.test .ng) ∧
    decode 0x1D18 = .op (.test .nle)) ∧
  ∀ s : State, s.Ready → s.flagsValid = true →
    (∀ cc ∈ [Cond.ns], exec (.test cc) s = .next (driveBit (!s.flags.sf) s)) ∧
    (∀ cc ∈ [Cond.pe], exec (.test cc) s = .next (driveBit s.flags.pf s)) ∧
    (∀ cc ∈ [Cond.np, .po], exec (.test cc) s = .next (driveBit (!s.flags.pf) s)) ∧
    (∀ cc ∈ [Cond.l, .nge], exec (.test cc) s = .next (driveBit (s.flags.sf ^^ s.flags.ovf) s)) ∧
    (∀ cc ∈ [Cond.nl], exec (.test cc) s = .next (driveBit (!(s.flags.sf ^^ s.flags.ovf)) s)) ∧
    (∀ cc ∈ [Cond.le, .ng], exec (.test cc) s = .next (driveBit (s.flags.zf || (s.flags.sf ^^ s.flags.ovf)) s)) ∧
    (∀ cc ∈ [Cond.nle], exec (.test cc) s = .next (driveBit (!s.flags.zf && !(s.flags.sf ^^ s.flags.ovf)) s))

/-- 45_flags_predicates R160: TEST drives P with the predicate and Y with its zero extension, leaves FLAGS and everything else
as it was, and before the first CMP faults FLAGS_UNDEFINED; its word is `0x0018 | (cc << 8)`, and with `cc` 30 or 31 it
faults BAD_COND. The predicates' formulas have statements of their own. -/
def Obligations.TestDrivesThePredicate : Prop :=
  (∀ cc : Cond, decode (0x0018 ||| (condCode cc).zeroExtend 16 <<< 8) = .op (.test cc)) ∧
  (decode 0x1E18 = .fault .badCond ∧ decode 0x1F18 = .fault .badCond) ∧
  ∀ cc : Cond, CommonChecks (.test cc) ∧
    ∀ s : State, s.Ready →
      (s.flagsValid = false → exec (.test cc) s = .next { s with faultCause := 5, y := none, p := none }) ∧
      (s.flagsValid = true → ∃ b : Bool, b = condHolds cc s.flags ∧
        exec (.test cc) s = .next { s with y := some (if b then 1 else 0), p := some b })

/-- The comparison laws of 45_flags_predicates R191, which the spec marks derived, for TESTs after a CMP of A and B at width `w`. -/
def Obligations.ComparisonLaws : Prop :=
  (∀ (w : Width) (s : State), s.Ready → s.Inv → ∃ (t : State) (pred : Cond → Bool), exec (.cmp w) s = .next t ∧
    (∀ cc, ∃ u, exec (.test cc) t = .next u ∧ u.p = some (pred cc)) ∧
    (pred .e = true ↔ s.port.a.toNat % 2 ^ widthBits w = s.port.b.toNat % 2 ^ widthBits w) ∧
    (pred .l = true ↔ signedLow w s.port.a < signedLow w s.port.b) ∧
    (pred .g = true ↔ signedLow w s.port.b < signedLow w s.port.a) ∧
    ((pred .l).toNat + (pred .e).toNat + (pred .g).toNat = 1) ∧
    (pred .b = true ↔ s.port.a.toNat % 2 ^ widthBits w < s.port.b.toNat % 2 ^ widthBits w) ∧
    (pred .a = true ↔ s.port.b.toNat % 2 ^ widthBits w < s.port.a.toNat % 2 ^ widthBits w) ∧
    ((pred .b).toNat + (pred .e).toNat + (pred .a).toNat = 1) ∧
    pred .le = (pred .l || pred .e) ∧ pred .be = (pred .b || pred .e)) ∧
  ∀ cc ∈ [Cond.l, .e, .g, .b, .a, .le, .ge, .be, .ae], ∀ (f : Flags) (b : Bool),
    condHolds cc { f with pf := b } = condHolds cc f

/-- 45_flags_predicates R192, which the spec marks derived: P, PE, NP and PO (cc 18 to 21) are the only predicates whose value depends on PF. -/
def Obligations.OnlyFourPredicatesReadParity : Prop :=
  ∀ cc : Cond, (∃ (f : Flags) (b : Bool), condHolds cc { f with pf := b } ≠ condHolds cc f) ↔
    cc ∈ [Cond.p, .pe, .np, .po]

/-- 70_reset R236, which the spec marks derived: over any run of commands of which none is a CMP and with no reset, FLAGS and FLAGS_VALID keep the record
of the most recent CMP. The host's list is the model's choice (notes/assumptions/1.md). -/
def Obligations.FlagsKeepTheLastCompare : Prop :=
  ∀ (n : Nat) (s t : State),
    (∀ x ∈ s.pending, ∃ c, x = HostInput.command c ∧ ∀ w, decode c.word ≠ .op (.cmp w)) →
    Host.Core.run Sys2Proof.core n s = .next t → t.flags = s.flags ∧ t.flagsValid = s.flagsValid

/-! ## Multiplication -/

/-- 46_multiply R201: inside the domain (both magnitudes below `2^w`, at width 32 every operand) `Y[w-1:0] = (A * B) mod 2^w`,
at width 32 the whole of Y; outside it the command still completes, Y being MULDRAW (R202), of which nothing is stated. -/
def Obligations.MulIsMultiplicationModuloTheWidth : Prop :=
  (decode 0x0014 = .op (.mul .w8) ∧ decode 0x0054 = .op (.mul .w16) ∧ decode 0x0094 = .op (.mul .w32) ∧
    decode 0x00D4 = .fault .badWidth) ∧
  ∀ w : Width, CommonChecks (.mul w) ∧
    ∀ s : State, s.Ready → s.Inv → ∃ (v : Word) (n : Nat),
      exec (.mul w) s = .next { s with y := some v, p := none, draws := n } ∧
      (s.port.a.toInt.natAbs < 2 ^ widthBits w → s.port.b.toInt.natAbs < 2 ^ widthBits w →
        v.toNat % 2 ^ widthBits w = s.port.a.toNat * s.port.b.toNat % 2 ^ widthBits w) ∧
      (w = .w32 → v = s.port.a * s.port.b)

/-- 46_multiply R203, which the spec marks derived and its own extension: at width 32 MUL is native signed multiplication modulo `2^32` on every pair, INT32_MIN included, and
`MUL.32 0x80000000, b = (b << 31) mod 2^32`. -/
def Obligations.MulIsSignedAtWidth32 : Prop :=
  ∀ s : State, s.Ready → s.Inv →
    exec (.mul .w32) s = .next { s with y := some (BitVec.ofInt 32 (s.port.a.toInt * s.port.b.toInt)), p := none } ∧
    exec (.mul .w32) (withPort .a 0x80000000 s) =
      .next { withPort .a 0x80000000 s with y := some (s.port.b <<< 31), p := none }
end

