-- ==== Sys2Proof/Laws/Words.lean ====
section
/-!
SUPPORT. The gate compositions are the native operations (40_gate_logic R86), the mutual bootstrap of negate, increment and
decrement (43_arith R120-R123), the selection (42_select R110, R111), the low bits of a word and the splice.
-/
namespace Sys2Proof.Machine

/-! ## Words (R82-R86) -/

theorem gateNot_eq (a : Word) : gateNot a = ~~~a := by simp [gateNot, nand32]

theorem gateOr_eq (a b : Word) : gateOr a b = a ||| b := by
  ext i
  simp [gateOr, nand32]

theorem gateAnd_eq (a b : Word) : gateAnd a b = a &&& b := by
  ext i
  simp [gateAnd, nand32]

theorem gateXor_eq (a b : Word) : gateXor a b = a ^^^ b := by
  ext i
  simp only [gateXor, gateOr_eq, gateAnd_eq, gateNot_eq, BitVec.getElem_or, BitVec.getElem_and, BitVec.getElem_not,
    BitVec.getElem_xor]
  cases a[i] <;> cases b[i] <;> rfl

/-! ## Bits (R124) -/

theorem notBit_eq (a : Bool) : notBit a = !a := by cases a <;> rfl
theorem orBit_eq (a b : Bool) : orBit a b = (a || b) := by cases a <;> cases b <;> rfl
theorem andBit_eq (a b : Bool) : andBit a b = (a && b) := by cases a <;> cases b <;> rfl
theorem xorBit_eq (a b : Bool) : xorBit a b = (a ^^ b) := by cases a <;> cases b <;> rfl

/-- The full adder: the sum bit is the exclusive or, the carry the majority (43_arith R124). -/
theorem fullAdd_eq (a b c : Bool) : fullAdd a b c = (a ^^ (b ^^ c), a.atLeastTwo b c) := by
  cases a <;> cases b <;> cases c <;> rfl

/-! ## Negate, increment, decrement (43_arith) -/

theorem neg32_eq (a : Word) : neg32 a = -a := by rw [neg32, gateNot_eq, BitVec.neg_eq_not_add]; rfl

theorem inc32_eq (a : Word) : inc32 a = a + 1 := by rw [inc32, neg32, gateNot_eq, gateNot_eq, BitVec.not_not]

theorem dec32_eq (a : Word) : dec32 a = a - 1 := by
  rw [dec32, gateNot_eq, neg32_eq, BitVec.not_neg]
  rfl

/-! ## Selection (42_select) -/

theorem selMask_zero : selMask 0 = 0 := rfl

theorem selMask_nonzero {c : Word} (h : c ≠ 0) : selMask c = BitVec.allOnes 32 := by
  rw [selMask, if_neg h]
  rfl

theorem selectIf_eq (t f c : Word) : selectIf t f c = if c = 0 then f else t := by
  simp only [selectIf, gateOr_eq, gateAnd_eq, gateNot_eq]
  by_cases h : c = 0
  · subst h
    rw [selMask_zero, if_pos rfl]
    simpa using BitVec.and_allOnes (x := f)
  · rw [selMask_nonzero h, if_neg h]
    simpa using BitVec.and_allOnes (x := t)

/-! ## Low bits -/

theorem widthBits_le (w : Width) : widthBits w ≤ 32 := by cases w <;> decide

theorem widthBits_pos (w : Width) : 8 ≤ widthBits w := by cases w <;> decide

/-- Two words agree modulo `2^n` when their bits below `n` do. -/
theorem mod_two_pow_eq_iff (x y : Word) (n : Nat) :
    x.toNat % 2 ^ n = y.toNat % 2 ^ n ↔ ∀ i < n, x.getLsbD i = y.getLsbD i := by
  constructor
  · intro h i hi
    have := congrArg (·.testBit i) h
    simpa [Nat.testBit_mod_two_pow, hi, BitVec.getLsbD] using this
  · intro h
    apply Nat.eq_of_testBit_eq
    intro i
    by_cases hi : i < n
    · simpa [Nat.testBit_mod_two_pow, hi, BitVec.getLsbD] using h i hi
    · simp [Nat.testBit_mod_two_pow, hi]

theorem getLsbD_lowMask (n i : Nat) : (lowMask n).getLsbD i = (decide (i < 32) && decide (i < n)) := by
  simp [lowMask, BitVec.getLsbD_ofNat, Nat.testBit_two_pow_sub_one]

theorem getLsbD_lowBits (w : Width) (v : Word) (i : Nat) :
    (lowBits w v).getLsbD i = (decide (i < widthBits w) && v.getLsbD i) := by
  have := widthBits_le w
  rw [lowBits, BitVec.getLsbD_and, getLsbD_lowMask]
  by_cases h : i < widthBits w
  · have : i < 32 := by omega
    simp [h, this]
  · simp [h]

/-- `lowBits` is the remainder modulo `2^w` (00_scope R12). -/
theorem toNat_lowBits (w : Width) (v : Word) : (lowBits w v).toNat = v.toNat % 2 ^ widthBits w := by
  apply Nat.eq_of_testBit_eq
  intro i
  have := getLsbD_lowBits w v i
  simpa [Nat.testBit_mod_two_pow, BitVec.getLsbD] using this

theorem lowBits_eq_of_mod_eq {w : Width} {x y : Word} (h : x.toNat % 2 ^ widthBits w = y.toNat % 2 ^ widthBits w) :
    lowBits w x = lowBits w y :=
  BitVec.eq_of_toNat_eq (by rw [toNat_lowBits, toNat_lowBits, h])

/-- The splice keeps the low bits of the result, whatever the draw is. -/
theorem splice_mod (w : Width) (low up : Word) :
    (splice w low up).toNat % 2 ^ widthBits w = low.toNat % 2 ^ widthBits w := by
  rw [mod_two_pow_eq_iff]
  intro i hi
  cases w
  · have h8 : i < 8 := hi
    have : i < 32 := by omega
    simp only [splice, BitVec.getLsbD_or, BitVec.getLsbD_and, BitVec.getLsbD_not, getLsbD_lowMask, h8, this]
    simp
  · have h16 : i < 16 := hi
    have : i < 32 := by omega
    simp only [splice, BitVec.getLsbD_or, BitVec.getLsbD_and, BitVec.getLsbD_not, getLsbD_lowMask, h16, this]
    simp
  · rfl

/-- At width 32 a result has no upper bits. -/
theorem splice_w32 (low up : Word) : splice .w32 low up = low := rfl

/-- At width 32 "modulo 2^32" says nothing away. -/
theorem eq_of_mod_w32 {x y : Word} (h : x.toNat % 2 ^ widthBits .w32 = y.toNat % 2 ^ widthBits .w32) : x = y := by
  apply BitVec.eq_of_toNat_eq
  have hx := x.isLt
  have hy := y.isLt
  simp only [widthBits] at h
  omega

end Sys2Proof.Machine
end

