-- ==== Sys2Proof/Laws/Table.lean ====
section
/-!
SUPPORT. The initialized bit-position table (41_bitpos_lut R100, R101): its entries, and what reading it through `bitPos`
and `bitSet` gives.
-/
namespace Sys2Proof.Machine

theorem powerTable_get (i : Fin 32) : powerTable[i] = BitVec.ofNat 32 (2 ^ i.val) := by simp [powerTable]

/-- A table whose entries are the powers of two is the one INIT writes. -/
theorem State.TableSet.lut_eq {s : State} (h : s.TableSet) : s.lut = powerTable := by
  apply Vector.ext
  intro i hi
  exact (h ⟨i, hi⟩).trans (powerTable_get ⟨i, hi⟩).symm

theorem tableSet_of_lut_eq {s : State} (h : s.lut = powerTable) : s.TableSet := fun i => by
  rw [h]
  exact powerTable_get i

theorem bitPos_powerTable {i : Nat} (h : i < 32) : bitPos powerTable i = BitVec.twoPow 32 i := by
  rw [bitPos, dif_pos h]
  exact (powerTable_get ⟨i, h⟩).trans (BitVec.eq_of_toNat_eq (by simp))

theorem toNat_bitPos {i : Nat} (h : i < 32) : (bitPos powerTable i).toNat = 2 ^ i := by
  rw [bitPos_powerTable h, BitVec.toNat_twoPow]
  exact Nat.mod_eq_of_lt (Nat.pow_lt_pow_right (by omega) h)

/-- Bit `j` of entry `i` is set only for `j = i`. -/
theorem getLsbD_bitPos {i : Nat} (h : i < 32) (j : Nat) : (bitPos powerTable i).getLsbD j = decide (j = i) := by
  rw [bitPos_powerTable h, BitVec.getLsbD_twoPow]
  by_cases hj : j = i
  · simp [hj, h]
  · have : ¬i = j := fun e => hj e.symm
    simp [hj, this]

/-- The unit's bit test reads the bit. -/
theorem bitSet_powerTable (v : Word) {i : Nat} (h : i < 32) : bitSet powerTable v i = v.getLsbD i := by
  rw [bitSet, bitPos_powerTable h]
  cases hb : v.getLsbD i with
  | true =>
    have : v &&& BitVec.twoPow 32 i ≠ 0 := fun e => by
      have := congrArg (·.getLsbD i) e
      simp [h] at this
      simp [BitVec.getLsbD_eq_getElem h, this] at hb
    simpa using this
  | false =>
    have : v &&& BitVec.twoPow 32 i = 0 := by
      apply BitVec.eq_of_getLsbD_eq
      intro j hj
      simp only [BitVec.getLsbD_and, BitVec.getLsbD_twoPow]
      by_cases e : i = j
      · subst e
        rw [hb]
        simp
      · simp [e]
    simp [this]

/-- The condition the shifter selects on is the bit test. -/
theorem and_bitPos_eq_zero (v : Word) {i : Nat} (h : i < 32) :
    (v &&& bitPos powerTable i = 0) ↔ v.getLsbD i = false := by
  have := bitSet_powerTable v h
  rw [bitSet] at this
  rw [← this]
  simp

end Sys2Proof.Machine
end

