-- ==== Sys2Proof/Laws/Adder.lean ====
section
/-!
SUPPORT. The ripple-carry adder over an initialized table is addition modulo `2^w` (43_arith R125, R128).
-/
namespace Sys2Proof.Machine

/-- After `n` iterations the carry is the native one, and bits below `n` are those of the sum. -/
theorem rippleAdd_spec (a b : Word) : ∀ n ≤ 32,
    (rippleAdd powerTable a b n).2 = BitVec.carry n a b false ∧
      ∀ j, (rippleAdd powerTable a b n).1.getLsbD j = (decide (j < n) && (a + b).getLsbD j)
  | 0, _ => by simp [rippleAdd]
  | n + 1, h => by
    have hn : n < 32 := h
    obtain ⟨hc, hr⟩ := rippleAdd_spec a b n (by omega)
    have hsum : (a + b).getLsbD n = (a.getLsbD n ^^ (b.getLsbD n ^^ BitVec.carry n a b false)) :=
      BitVec.getLsbD_add hn a b
    simp only [rippleAdd, bitSet_powerTable a hn, bitSet_powerTable b hn, fullAdd_eq, hc]
    refine ⟨(BitVec.carry_succ n a b false).symm, fun j => ?_⟩
    rw [← hsum]
    cases hs : (a + b).getLsbD n with
    | true =>
      simp only [if_true, BitVec.getLsbD_or, hr, getLsbD_bitPos hn]
      by_cases hj : j = n
      · subst hj
        simp [hs]
      · have : (j < n + 1) = (j < n) := by simp; omega
        simp [hj, this]
    | false =>
      simp only [Bool.false_eq_true, if_false, hr]
      by_cases hj : j = n
      · subst hj
        simp [hs]
      · have : (j < n + 1) = (j < n) := by simp; omega
        simp [this]

/-- `add_w` is addition in the low `w` bits, whatever the draw is (R125). -/
theorem addW_mod (up a b : Word) (w : Width) :
    (addW powerTable up a b w).toNat % 2 ^ widthBits w = (a.toNat + b.toNat) % 2 ^ widthBits w := by
  have hw := widthBits_le w
  have hadd : (a + b).toNat % 2 ^ widthBits w = (a.toNat + b.toNat) % 2 ^ widthBits w := by
    rw [BitVec.toNat_add]
    exact Nat.mod_mod_of_dvd _ (pow_dvd_pow 2 hw)
  rw [addW, splice_mod, ← hadd, mod_two_pow_eq_iff]
  intro i hi
  rw [(rippleAdd_spec a b _ hw).2 i]
  simp [hi]

/-- `add_w` at width 32 is the 32-bit addition. -/
theorem addW_w32 (up a b : Word) : addW powerTable up a b .w32 = a + b :=
  eq_of_mod_w32 (by rw [addW_mod, BitVec.toNat_add]; exact (Nat.mod_mod_of_dvd _ (dvd_refl _)).symm)

/-- `add_w(a, neg32(b), w)` is subtraction in the low `w` bits (43_arith R127). -/
theorem subW_mod (up a b : Word) (w : Width) :
    (addW powerTable up a (neg32 b) w).toNat % 2 ^ widthBits w = (a - b).toNat % 2 ^ widthBits w := by
  have hw := widthBits_le w
  rw [addW_mod, neg32_eq, BitVec.sub_eq_add_neg, BitVec.toNat_add]
  exact (Nat.mod_mod_of_dvd _ (pow_dvd_pow 2 hw)).symm

/-- SUB at width 32 is the 32-bit subtraction. -/
theorem subW_w32 (up a b : Word) : addW powerTable up a (neg32 b) .w32 = a - b := by
  rw [addW_w32, neg32_eq, BitVec.sub_eq_add_neg]

end Sys2Proof.Machine
end

