-- ==== Sys2Proof/Laws/Decode.lean ====
section
/-!
SUPPORT. The command word's fields and the word they make are inverse, and the tables of the decoder and the encoder are.
-/
namespace Sys2Proof

/-- Splitting the word made of four fields gives them back (30_encoding R56). -/
theorem cmdFields_cmdOfFields (f : CmdFields) : cmdFields (cmdOfFields f) = f := by
  obtain ⟨rsv, cc, w, op⟩ := f
  simp only [cmdFields, cmdOfFields, CmdFields.mk.injEq]
  refine ⟨?_, ?_, ?_, ?_⟩ <;> ext i hi <;> interval_cases i <;> simp

/-- Putting a word's fields together gives the word back (30_encoding R56). -/
theorem cmdOfFields_cmdFields (cmd : CmdWord) : cmdOfFields (cmdFields cmd) = cmd := by
  simp only [cmdFields, cmdOfFields]
  ext i hi
  interval_cases i <;> simp

theorem widthOfCode_widthCode (w : Width) : widthOfCode (widthCode w) = some w := by cases w <;> rfl

theorem widthOfCode_eq_some {c : BitVec 2} {w : Width} : widthOfCode c = some w ↔ c = widthCode w := by
  revert c
  cases w <;> decide

theorem condOfCode_condCode (cc : Cond) : condOfCode (condCode cc) = some cc := by cases cc <;> rfl

theorem condOfCode_eq_some {c : BitVec 5} {cc : Cond} : condOfCode c = some cc ↔ c = condCode cc := by
  revert c
  cases cc <;> decide

/-- Whatever the opcode map gives for an op value, the encoder's field table spells with that value (30_encoding R57). -/
theorem opForm_spec (op : BitVec 6) :
    match opForm op with
    | none => True
    | some (.plain i) => instrFields i = plainFields op
    | some (.widthTaking mk) => ∀ w, instrFields (mk w) = widthFields op w
    | some .condTaking => op = 0x18 := by
  obtain ⟨⟨n, h⟩⟩ := op
  interval_cases n <;> first | trivial | rfl | (intro w; rfl)

end Sys2Proof
end

