-- ==== Sys2Proof/Laws/Shifter.lean ====
section
/-!
SUPPORT. The shifter over an initialized table is multiplication by a power of two modulo `2^w` (44_shift R140, R142).
-/
namespace Sys2Proof.Machine

/-- After `n` iterations bits `[n+e-1:e]` are bits `[n-1:0]` of the operand and the rest is 0. -/
theorem shiftLoop_spec (a : Word) (e : Nat) : ∀ n, n + e ≤ 32 →
    ∀ j, (shiftLoop powerTable a e n).getLsbD j = (decide (e ≤ j) && decide (j < n + e) && a.getLsbD (j - e))
  | 0, _, j => by
    have : ¬(e ≤ j ∧ j < 0 + e) := by omega
    by_cases h : e ≤ j
    · have : ¬j < e := by omega
      simp [shiftLoop, this]
    · simp [shiftLoop, h]
  | n + 1, h, j => by
    have hn : n < 32 := by omega
    have hne : n + e < 32 := by omega
    have ih := shiftLoop_spec a e n (by omega) j
    simp only [shiftLoop, selectIf_eq, and_bitPos_eq_zero a hn]
    by_cases hj : j = n + e
    · subst hj
      have hlt : ¬n + e < n + e := by omega
      cases hb : a.getLsbD n with
      | true => simp [getLsbD_bitPos hne, hb]
      | false => rw [if_pos rfl, ih]; simp [hb]
    · have hiff : (j < n + 1 + e) = (j < n + e) := by simp; omega
      cases hb : a.getLsbD n with
      | true => simp only [Bool.true_eq_false, if_false, BitVec.getLsbD_or, ih, getLsbD_bitPos hne, hj, hiff]; simp
      | false => rw [if_pos rfl, ih]; simp only [hiff]

/-- `shl_w` is multiplication by `2^(amount mod w)` in the low `w` bits, whatever the draw is (R140). -/
theorem shlW_mod (up a : Word) (amount : Nat) (w : Width) :
    (shlW powerTable up a amount w).toNat % 2 ^ widthBits w =
      (a.toNat * 2 ^ (amount % widthBits w)) % 2 ^ widthBits w := by
  have hw := widthBits_le w
  have h8 := widthBits_pos w
  have he : amount % widthBits w < widthBits w := Nat.mod_lt _ (by omega)
  have hshift : (a <<< (amount % widthBits w)).toNat % 2 ^ widthBits w =
      (a.toNat * 2 ^ (amount % widthBits w)) % 2 ^ widthBits w := by
    rw [BitVec.toNat_shiftLeft, Nat.shiftLeft_eq]
    exact Nat.mod_mod_of_dvd _ (pow_dvd_pow 2 hw)
  rw [shlW, splice_mod, ← hshift, mod_two_pow_eq_iff]
  intro i hi
  rw [shiftLoop_spec a _ _ (by omega) i]
  have hlt : i < widthBits w - amount % widthBits w + amount % widthBits w := by omega
  have h32 : i < 32 := by omega
  simp only [hlt, BitVec.getLsbD_shiftLeft, h32]
  by_cases hle : amount % widthBits w ≤ i
  · have : ¬i < amount % widthBits w := by omega
    simp [hle, this]
  · have : i < amount % widthBits w := by omega
    simp [hle, this]

/-- `shl_w` at width 32 is the 32-bit left shift by the amount modulo 32. -/
theorem shlW_w32 (up a : Word) (amount : Nat) : shlW powerTable up a amount .w32 = a <<< (amount % 32) :=
  eq_of_mod_w32 (by
    rw [shlW_mod, BitVec.toNat_shiftLeft, Nat.shiftLeft_eq]
    exact (Nat.mod_mod_of_dvd _ (dvd_refl _)).symm)

end Sys2Proof.Machine
end

