-- ==== Sys2Proof/Laws/Multiplier.lean ====
section
/-!
SUPPORT. The multiplier over an initialized table is multiplication modulo `2^w` inside its domain (46_multiply R200-R203).
-/
namespace Sys2Proof.Machine

/-- The search finds the highest set bit of a word that is not 0 (46_multiply R200). -/
theorem highestBelow_spec (v : Word) (hv : v.toNat ≠ 0) : ∀ n ≤ 32, v.toNat < 2 ^ n →
    ∃ k < n, highestBelow powerTable v n = some k ∧ 2 ^ k ≤ v.toNat ∧ v.toNat < 2 ^ (k + 1)
  | 0, _, h => by simp at h; omega
  | n + 1, hn, h => by
    rw [highestBelow, toNat_bitPos hn]
    by_cases hle : 2 ^ n ≤ v.toNat
    · exact ⟨n, by omega, if_pos hle, hle, h⟩
    · obtain ⟨k, hk, hs, h1, h2⟩ := highestBelow_spec v hv n (by omega) (by omega)
      exact ⟨k, by omega, by rw [if_neg hle, hs], h1, h2⟩

/-- With as many iterations as `ma` has bits, the loop adds `mb * ma` modulo `2^w` (46_multiply R200). -/
theorem mulLoop_spec (up mb : Word) (w : Width) : ∀ (n : Nat) (ma acc : Word), ma.toNat < 2 ^ n →
    ma.toNat < 2 ^ widthBits w →
    (mulLoop powerTable up mb w n ma acc).toNat ≡ acc.toNat + mb.toNat * ma.toNat [MOD 2 ^ widthBits w]
  | 0, ma, acc, hn, _ => by
    have h0 : ma.toNat = 0 := by simpa using hn
    simp [mulLoop, h0, Nat.ModEq]
  | n + 1, ma, acc, hn, hd => by
    by_cases hma : ma = 0
    · subst hma
      simp [mulLoop, Nat.ModEq]
    · have hne : ma.toNat ≠ 0 := fun e => hma (BitVec.eq_of_toNat_eq (by simpa using e))
      obtain ⟨k, hk, hs, h1, h2⟩ := highestBelow_spec ma hne 32 le_rfl ma.isLt
      have hkn : k < n + 1 := (Nat.pow_lt_pow_iff_right (by omega)).1 (lt_of_le_of_lt h1 hn)
      have hkw : k < widthBits w := (Nat.pow_lt_pow_iff_right (by omega)).1 (lt_of_le_of_lt h1 hd)
      have hsub : (ma - bitPos powerTable k).toNat = ma.toNat - 2 ^ k := by
        rw [BitVec.toNat_sub_of_le (by rw [BitVec.le_def, toNat_bitPos hk]; exact h1), toNat_bitPos hk]
      have hrest : ma.toNat - 2 ^ k < 2 ^ k := by rw [pow_succ] at h2; omega
      have hpow : 2 ^ k ≤ 2 ^ n := Nat.pow_le_pow_right (by omega) (by omega)
      simp only [mulLoop, if_neg hma, hs]
      have ih := mulLoop_spec up mb w n (ma - bitPos powerTable k)
        (addW powerTable up acc (shlW powerTable up mb k w) w) (by omega) (by omega)
      refine ih.trans ?_
      have hadd := addW_mod up acc (shlW powerTable up mb k w) w
      have hshl := shlW_mod up mb k w
      rw [Nat.mod_eq_of_lt hkw] at hshl
      have hstep : (addW powerTable up acc (shlW powerTable up mb k w) w).toNat ≡
          acc.toNat + mb.toNat * 2 ^ k [MOD 2 ^ widthBits w] :=
        Nat.ModEq.trans hadd (Nat.ModEq.add_left _ hshl)
      have hsplit : acc.toNat + mb.toNat * ma.toNat =
          acc.toNat + mb.toNat * 2 ^ k + mb.toNat * (ma.toNat - 2 ^ k) := by
        rw [add_assoc, ← Nat.mul_add, Nat.add_sub_cancel' h1]
      rw [hsplit, hsub]
      exact Nat.ModEq.add_right _ hstep

/-- Negation modulo `2^w`, read in the integers. -/
theorem toNat_neg_modEq (x : Word) (w : Width) :
    ((-x).toNat : Int) ≡ -(x.toNat : Int) [ZMOD (2 ^ widthBits w : Nat)] := by
  have hdvd : ((2 ^ widthBits w : Nat) : Int) ∣ ((2 ^ 32 : Nat) : Int) :=
    Int.natCast_dvd_natCast.2 (pow_dvd_pow 2 (widthBits_le w))
  refine Int.ModEq.of_dvd hdvd ?_
  rw [BitVec.toNat_neg, Int.ModEq]
  have := x.isLt
  push_cast [Nat.cast_sub (le_of_lt this)]
  omega

/-- A magnitude is the operand up to its sign (46_multiply R200). -/
theorem magnitude_eq (a : Word) : magnitude a = if a.msb then -a else a := by simp [magnitude]

/-- The domain of MUL bounds both magnitudes by `2^w` (46_multiply R202). -/
theorem mulInDomain_iff (a b : Word) (w : Width) :
    mulInDomain a b w = true ↔
      (magnitude a).toNat < 2 ^ widthBits w ∧ (magnitude b).toNat < 2 ^ widthBits w := by
  cases w
  · simp [mulInDomain, widthBits]
  · simp [mulInDomain, widthBits]
  · exact ⟨fun _ => ⟨(magnitude a).isLt, (magnitude b).isLt⟩, fun _ => rfl⟩

/-- The loop's product of the magnitudes, whichever of them is scanned. -/
theorem mulLoop_magnitudes (up x y : Word) (w : Width) (hx : x.toNat < 2 ^ widthBits w)
    (hy : y.toNat < 2 ^ widthBits w) :
    (if x.toNat < y.toNat then mulLoop powerTable up x w 32 y 0 else mulLoop powerTable up y w 32 x 0).toNat ≡
      x.toNat * y.toNat [MOD 2 ^ widthBits w] := by
  by_cases h : x.toNat < y.toNat
  · rw [if_pos h]
    simpa using mulLoop_spec up x w 32 y 0 y.isLt hy
  · rw [if_neg h]
    simpa [Nat.mul_comm] using mulLoop_spec up y w 32 x 0 x.isLt hx

/-- `mul_w` is multiplication in the low `w` bits inside the domain, whatever the draws are (46_multiply R201). -/
theorem mulW_mod (up a b : Word) (w : Width) (h : mulInDomain a b w = true) :
    (mulW powerTable up a b w).toNat % 2 ^ widthBits w = (a * b).toNat % 2 ^ widthBits w := by
  obtain ⟨ha, hb⟩ := (mulInDomain_iff a b w).1 h
  have hloop := Int.natCast_modEq_iff.2 (mulLoop_magnitudes up _ _ w ha hb)
  have hdvd : 2 ^ widthBits w ∣ 2 ^ 32 := pow_dvd_pow 2 (widthBits_le w)
  have hprod : ((a * b).toNat : Int) ≡ a.toNat * b.toNat [ZMOD (2 ^ widthBits w : Nat)] := by
    have : (a * b).toNat ≡ a.toNat * b.toNat [MOD 2 ^ widthBits w] := by
      rw [BitVec.toNat_mul]
      exact Nat.mod_mod_of_dvd _ hdvd
    exact_mod_cast Int.natCast_modEq_iff.2 this
  have hna := toNat_neg_modEq a w
  have hnb := toNat_neg_modEq b w
  suffices hmain : ((mulW powerTable up a b w).toNat : Int) ≡ (a * b).toNat [ZMOD (2 ^ widthBits w : Nat)] from
    Int.natCast_modEq_iff.1 hmain
  refine Int.ModEq.trans ?_ hprod.symm
  simp only [magnitude_eq] at hloop
  simp only [mulW, magnitude_eq, neg32_eq]
  push_cast at hloop
  cases hma : a.msb <;> cases hmb : b.msb <;>
    simp only [hma, hmb, Bool.false_eq_true, if_false, if_true, Bool.xor_false, Bool.xor_true, Bool.not_true,
      Bool.not_false] at hloop ⊢
  · exact hloop
  · refine (toNat_neg_modEq _ w).trans ((hloop.trans (Int.ModEq.mul_left _ hnb)).neg.trans ?_)
    rw [mul_neg, neg_neg]
  · refine (toNat_neg_modEq _ w).trans ((hloop.trans (Int.ModEq.mul_right _ hna)).neg.trans ?_)
    rw [neg_mul, neg_neg]
  · refine hloop.trans ((Int.ModEq.mul hna hnb).trans ?_)
    rw [neg_mul_neg]

/-- `mul_w` at width 32 is the 32-bit product (46_multiply R201, R203). -/
theorem mulW_w32 (up a b : Word) : mulW powerTable up a b .w32 = a * b := eq_of_mod_w32 (mulW_mod up a b .w32 rfl)

end Sys2Proof.Machine
end

