-- ==== Sys2Proof/Laws/State.lean ====
section
/-!
SUPPORT. What each update of the state does to each field: one lemma per field per update.
-/
namespace Sys2Proof.Machine

variable (s : State)

/-! ## driveNothing -/

@[simp] theorem driveNothing_lut : (driveNothing s).lut = s.lut := rfl
@[simp] theorem driveNothing_lutValid : (driveNothing s).lutValid = s.lutValid := rfl
@[simp] theorem driveNothing_flags : (driveNothing s).flags = s.flags := rfl
@[simp] theorem driveNothing_flagsValid : (driveNothing s).flagsValid = s.flagsValid := rfl
@[simp] theorem driveNothing_faultCause : (driveNothing s).faultCause = s.faultCause := rfl
@[simp] theorem driveNothing_port : (driveNothing s).port = s.port := rfl
@[simp] theorem driveNothing_pending : (driveNothing s).pending = s.pending := rfl
@[simp] theorem driveNothing_y : (driveNothing s).y = none := rfl
@[simp] theorem driveNothing_p : (driveNothing s).p = none := rfl
@[simp] theorem driveNothing_draws : (driveNothing s).draws = s.draws := rfl
@[simp] theorem driveNothing_pfRule : (driveNothing s).pfRule = s.pfRule := rfl

/-! ## takeFault -/

@[simp] theorem takeFault_lut (c : Cause) : (takeFault c s).lut = s.lut := rfl
@[simp] theorem takeFault_lutValid (c : Cause) : (takeFault c s).lutValid = s.lutValid := rfl
@[simp] theorem takeFault_flags (c : Cause) : (takeFault c s).flags = s.flags := rfl
@[simp] theorem takeFault_flagsValid (c : Cause) : (takeFault c s).flagsValid = s.flagsValid := rfl
@[simp] theorem takeFault_faultCause (c : Cause) : (takeFault c s).faultCause = causeCode c := rfl
@[simp] theorem takeFault_port (c : Cause) : (takeFault c s).port = s.port := rfl
@[simp] theorem takeFault_pending (c : Cause) : (takeFault c s).pending = s.pending := rfl
@[simp] theorem takeFault_y (c : Cause) : (takeFault c s).y = none := rfl
@[simp] theorem takeFault_p (c : Cause) : (takeFault c s).p = none := rfl
@[simp] theorem takeFault_draws (c : Cause) : (takeFault c s).draws = s.draws := rfl
@[simp] theorem takeFault_pfRule (c : Cause) : (takeFault c s).pfRule = s.pfRule := rfl

/-! ## driveWord -/

@[simp] theorem driveWord_lut (v : Word) : (driveWord v s).lut = s.lut := rfl
@[simp] theorem driveWord_lutValid (v : Word) : (driveWord v s).lutValid = s.lutValid := rfl
@[simp] theorem driveWord_flags (v : Word) : (driveWord v s).flags = s.flags := rfl
@[simp] theorem driveWord_flagsValid (v : Word) : (driveWord v s).flagsValid = s.flagsValid := rfl
@[simp] theorem driveWord_faultCause (v : Word) : (driveWord v s).faultCause = s.faultCause := rfl
@[simp] theorem driveWord_port (v : Word) : (driveWord v s).port = s.port := rfl
@[simp] theorem driveWord_pending (v : Word) : (driveWord v s).pending = s.pending := rfl
@[simp] theorem driveWord_y (v : Word) : (driveWord v s).y = some v := rfl
@[simp] theorem driveWord_p (v : Word) : (driveWord v s).p = none := rfl
@[simp] theorem driveWord_draws (v : Word) : (driveWord v s).draws = s.draws := rfl
@[simp] theorem driveWord_pfRule (v : Word) : (driveWord v s).pfRule = s.pfRule := rfl

/-! ## driveBit -/

@[simp] theorem driveBit_lut (b : Bool) : (driveBit b s).lut = s.lut := rfl
@[simp] theorem driveBit_lutValid (b : Bool) : (driveBit b s).lutValid = s.lutValid := rfl
@[simp] theorem driveBit_flags (b : Bool) : (driveBit b s).flags = s.flags := rfl
@[simp] theorem driveBit_flagsValid (b : Bool) : (driveBit b s).flagsValid = s.flagsValid := rfl
@[simp] theorem driveBit_faultCause (b : Bool) : (driveBit b s).faultCause = s.faultCause := rfl
@[simp] theorem driveBit_port (b : Bool) : (driveBit b s).port = s.port := rfl
@[simp] theorem driveBit_pending (b : Bool) : (driveBit b s).pending = s.pending := rfl
@[simp] theorem driveBit_y (b : Bool) : (driveBit b s).y = some (wordOfBit b) := rfl
@[simp] theorem driveBit_p (b : Bool) : (driveBit b s).p = some b := rfl
@[simp] theorem driveBit_draws (b : Bool) : (driveBit b s).draws = s.draws := rfl
@[simp] theorem driveBit_pfRule (b : Bool) : (driveBit b s).pfRule = s.pfRule := rfl

/-! ## countDraw -/

@[simp] theorem countDraw_lut : (countDraw s).lut = s.lut := rfl
@[simp] theorem countDraw_lutValid : (countDraw s).lutValid = s.lutValid := rfl
@[simp] theorem countDraw_flags : (countDraw s).flags = s.flags := rfl
@[simp] theorem countDraw_flagsValid : (countDraw s).flagsValid = s.flagsValid := rfl
@[simp] theorem countDraw_faultCause : (countDraw s).faultCause = s.faultCause := rfl
@[simp] theorem countDraw_port : (countDraw s).port = s.port := rfl
@[simp] theorem countDraw_pending : (countDraw s).pending = s.pending := rfl
@[simp] theorem countDraw_y : (countDraw s).y = s.y := rfl
@[simp] theorem countDraw_p : (countDraw s).p = s.p := rfl
@[simp] theorem countDraw_draws : (countDraw s).draws = s.draws + 1 := rfl
@[simp] theorem countDraw_pfRule : (countDraw s).pfRule = s.pfRule := rfl

/-! ## writeTable -/

@[simp] theorem writeTable_lut : (writeTable s).lut = powerTable := rfl
@[simp] theorem writeTable_lutValid : (writeTable s).lutValid = true := rfl
@[simp] theorem writeTable_flags : (writeTable s).flags = s.flags := rfl
@[simp] theorem writeTable_flagsValid : (writeTable s).flagsValid = s.flagsValid := rfl
@[simp] theorem writeTable_faultCause : (writeTable s).faultCause = s.faultCause := rfl
@[simp] theorem writeTable_port : (writeTable s).port = s.port := rfl
@[simp] theorem writeTable_pending : (writeTable s).pending = s.pending := rfl
@[simp] theorem writeTable_y : (writeTable s).y = s.y := rfl
@[simp] theorem writeTable_p : (writeTable s).p = s.p := rfl
@[simp] theorem writeTable_draws : (writeTable s).draws = s.draws := rfl
@[simp] theorem writeTable_pfRule : (writeTable s).pfRule = s.pfRule := rfl

/-! ## writeFlags -/

@[simp] theorem writeFlags_lut (f : Flags) : (writeFlags f s).lut = s.lut := rfl
@[simp] theorem writeFlags_lutValid (f : Flags) : (writeFlags f s).lutValid = s.lutValid := rfl
@[simp] theorem writeFlags_flags (f : Flags) : (writeFlags f s).flags = f := rfl
@[simp] theorem writeFlags_flagsValid (f : Flags) : (writeFlags f s).flagsValid = true := rfl
@[simp] theorem writeFlags_faultCause (f : Flags) : (writeFlags f s).faultCause = s.faultCause := rfl
@[simp] theorem writeFlags_port (f : Flags) : (writeFlags f s).port = s.port := rfl
@[simp] theorem writeFlags_pending (f : Flags) : (writeFlags f s).pending = s.pending := rfl
@[simp] theorem writeFlags_y (f : Flags) : (writeFlags f s).y = s.y := rfl
@[simp] theorem writeFlags_p (f : Flags) : (writeFlags f s).p = s.p := rfl
@[simp] theorem writeFlags_draws (f : Flags) : (writeFlags f s).draws = s.draws := rfl
@[simp] theorem writeFlags_pfRule (f : Flags) : (writeFlags f s).pfRule = s.pfRule := rfl

/-! ## present -/

@[simp] theorem present_lut (cmd : Command) (rest : List HostInput) : (present cmd rest s).lut = s.lut := rfl
@[simp] theorem present_lutValid (cmd : Command) (rest : List HostInput) : (present cmd rest s).lutValid = s.lutValid := rfl
@[simp] theorem present_flags (cmd : Command) (rest : List HostInput) : (present cmd rest s).flags = s.flags := rfl
@[simp] theorem present_flagsValid (cmd : Command) (rest : List HostInput) : (present cmd rest s).flagsValid = s.flagsValid := rfl
@[simp] theorem present_faultCause (cmd : Command) (rest : List HostInput) : (present cmd rest s).faultCause = s.faultCause := rfl
@[simp] theorem present_port (cmd : Command) (rest : List HostInput) : (present cmd rest s).port = cmd := rfl
@[simp] theorem present_pending (cmd : Command) (rest : List HostInput) : (present cmd rest s).pending = rest := rfl
@[simp] theorem present_y (cmd : Command) (rest : List HostInput) : (present cmd rest s).y = s.y := rfl
@[simp] theorem present_p (cmd : Command) (rest : List HostInput) : (present cmd rest s).p = s.p := rfl
@[simp] theorem present_draws (cmd : Command) (rest : List HostInput) : (present cmd rest s).draws = s.draws := rfl
@[simp] theorem present_pfRule (cmd : Command) (rest : List HostInput) : (present cmd rest s).pfRule = s.pfRule := rfl

/-! ## resetEvent -/

@[simp] theorem resetEvent_lut (rest : List HostInput) : (resetEvent rest s).lut = resetTable s.draws := by unfold resetEvent; rfl
@[simp] theorem resetEvent_lutValid (rest : List HostInput) : (resetEvent rest s).lutValid = false := by unfold resetEvent; rfl
@[simp] theorem resetEvent_flags (rest : List HostInput) : (resetEvent rest s).flags = resetFlags s.draws := by unfold resetEvent; rfl
@[simp] theorem resetEvent_flagsValid (rest : List HostInput) : (resetEvent rest s).flagsValid = false := by unfold resetEvent; rfl
@[simp] theorem resetEvent_faultCause (rest : List HostInput) : (resetEvent rest s).faultCause = 0 := by unfold resetEvent; rfl
@[simp] theorem resetEvent_port (rest : List HostInput) : (resetEvent rest s).port = s.port := by unfold resetEvent; rfl
@[simp] theorem resetEvent_pending (rest : List HostInput) : (resetEvent rest s).pending = rest := by unfold resetEvent; rfl
@[simp] theorem resetEvent_y (rest : List HostInput) : (resetEvent rest s).y = none := by unfold resetEvent; rfl
@[simp] theorem resetEvent_p (rest : List HostInput) : (resetEvent rest s).p = none := by unfold resetEvent; rfl
@[simp] theorem resetEvent_draws (rest : List HostInput) : (resetEvent rest s).draws = s.draws + 1 := by unfold resetEvent; rfl
@[simp] theorem resetEvent_pfRule (rest : List HostInput) : (resetEvent rest s).pfRule = s.pfRule := by unfold resetEvent; rfl

/-! ## driveWidth -/

@[simp] theorem driveWidth_lut (w : Width) (v : Word) : (driveWidth w v s).lut = s.lut := by cases w <;> rfl
@[simp] theorem driveWidth_lutValid (w : Width) (v : Word) : (driveWidth w v s).lutValid = s.lutValid := by cases w <;> rfl
@[simp] theorem driveWidth_flags (w : Width) (v : Word) : (driveWidth w v s).flags = s.flags := by cases w <;> rfl
@[simp] theorem driveWidth_flagsValid (w : Width) (v : Word) : (driveWidth w v s).flagsValid = s.flagsValid := by cases w <;> rfl
@[simp] theorem driveWidth_faultCause (w : Width) (v : Word) : (driveWidth w v s).faultCause = s.faultCause := by cases w <;> rfl
@[simp] theorem driveWidth_port (w : Width) (v : Word) : (driveWidth w v s).port = s.port := by cases w <;> rfl
@[simp] theorem driveWidth_pending (w : Width) (v : Word) : (driveWidth w v s).pending = s.pending := by cases w <;> rfl
@[simp] theorem driveWidth_y (w : Width) (v : Word) : (driveWidth w v s).y = some v := by cases w <;> rfl
@[simp] theorem driveWidth_p (w : Width) (v : Word) : (driveWidth w v s).p = none := by cases w <;> rfl
@[simp] theorem driveWidth_pfRule (w : Width) (v : Word) : (driveWidth w v s).pfRule = s.pfRule := by cases w <;> rfl

theorem driveWidth_draws (w : Width) (v : Word) :
    (driveWidth w v s).draws = if w = .w32 then s.draws else s.draws + 1 := by cases w <;> rfl

/-! ## withPort -/

@[simp] theorem withPort_lut (q : Port) (v : Word) : (withPort q v s).lut = s.lut := by cases q <;> rfl
@[simp] theorem withPort_lutValid (q : Port) (v : Word) : (withPort q v s).lutValid = s.lutValid := by cases q <;> rfl
@[simp] theorem withPort_flags (q : Port) (v : Word) : (withPort q v s).flags = s.flags := by cases q <;> rfl
@[simp] theorem withPort_flagsValid (q : Port) (v : Word) : (withPort q v s).flagsValid = s.flagsValid := by cases q <;> rfl
@[simp] theorem withPort_faultCause (q : Port) (v : Word) : (withPort q v s).faultCause = s.faultCause := by cases q <;> rfl
@[simp] theorem withPort_pending (q : Port) (v : Word) : (withPort q v s).pending = s.pending := by cases q <;> rfl
@[simp] theorem withPort_y (q : Port) (v : Word) : (withPort q v s).y = s.y := by cases q <;> rfl
@[simp] theorem withPort_p (q : Port) (v : Word) : (withPort q v s).p = s.p := by cases q <;> rfl
@[simp] theorem withPort_draws (q : Port) (v : Word) : (withPort q v s).draws = s.draws := by cases q <;> rfl
@[simp] theorem withPort_pfRule (q : Port) (v : Word) : (withPort q v s).pfRule = s.pfRule := by cases q <;> rfl

/-! ## State.reset (70_reset R230) -/

@[simp] theorem reset_lutValid : State.reset.lutValid = false := rfl
@[simp] theorem reset_flagsValid : State.reset.flagsValid = false := rfl
@[simp] theorem reset_faultCause : State.reset.faultCause = 0 := rfl
@[simp] theorem reset_pending : State.reset.pending = [] := rfl
@[simp] theorem reset_y : State.reset.y = none := rfl
@[simp] theorem reset_p : State.reset.p = none := rfl
@[simp] theorem reset_pfRule : State.reset.pfRule = .toggleFromZero := rfl

end Sys2Proof.Machine
end

