-- ==== Sys2Proof/Laws/Ops.lean ====
section
/-!
SUPPORT. The fault codes, the outcome type, and everything the common checks can do.
-/
namespace Sys2Proof.Machine

/-! ## Fault codes -/

/-- No cause has the code of "no fault". -/
theorem causeCode_ne_zero (c : Cause) : causeCode c ≠ 0 := by cases c <;> decide

/-- A code names one cause (10_state R33). -/
theorem causeCode_injective {c d : Cause} (h : causeCode c = causeCode d) : c = d := by
  cases c <;> cases d <;> first | rfl | exact absurd h (by decide)

theorem takeFault_faultCause_ne_zero (c : Cause) (s : State) : (takeFault c s).faultCause ≠ 0 := causeCode_ne_zero c

/-! ## The stop -/

theorem stopped_eq_true {s : State} : stopped s = true ↔ s.faultCause ≠ 0 := by simp [stopped]

theorem unlessStopped_stopped {s : State} (h : s.faultCause ≠ 0) (k : State → State) :
    unlessStopped s k = driveNothing s := if_pos (stopped_eq_true.2 h)

theorem unlessStopped_running {s : State} (h : s.faultCause = 0) (k : State → State) : unlessStopped s k = k s :=
  if_neg fun hs => stopped_eq_true.1 hs h

/-! ## The checks of every command but INIT -/

theorem perform_stopped {s : State} (h : s.faultCause ≠ 0) (k : State → State) :
    perform s k = .next (driveNothing s) := by rw [perform, unlessStopped_stopped h]

theorem perform_uninit {s : State} (h : s.faultCause = 0) (hv : s.lutValid = false) (k : State → State) :
    perform s k = .next (takeFault .lutUninit s) := by simp [perform, unlessStopped_running h, hv]

theorem perform_ready {s : State} (h : s.Ready) (k : State → State) : perform s k = .next (k s) := by
  simp [perform, unlessStopped_running h.1, h.2]

/-- Everything `perform` can do. -/
theorem perform_cases {s t : State} {k : State → State} (h : perform s k = .next t) :
    (s.faultCause ≠ 0 ∧ t = driveNothing s) ∨
      (s.faultCause = 0 ∧ s.lutValid = false ∧ t = takeFault .lutUninit s) ∨ (s.Ready ∧ t = k s) := by
  by_cases hf : s.faultCause = 0
  · cases hv : s.lutValid with
    | false =>
      rw [perform_uninit hf hv] at h
      exact .inr (.inl ⟨hf, rfl, (Host.Outcome.next.inj h).symm⟩)
    | true =>
      rw [perform_ready ⟨hf, hv⟩] at h
      exact .inr (.inr ⟨⟨hf, hv⟩, (Host.Outcome.next.inj h).symm⟩)
  · rw [perform_stopped hf] at h
    exact .inl ⟨hf, (Host.Outcome.next.inj h).symm⟩

/-- Driving a width-`w` result writes Y, P and the draw counter, nothing else. -/
theorem driveWidth_eq (w : Width) (v : Word) (s : State) :
    ∃ n, driveWidth w v s = { s with y := some v, p := none, draws := n } := by cases w <;> exact ⟨_, rfl⟩

/-! ## The checks of INIT, and a rejected word -/

theorem performInit_stopped {s : State} (h : s.faultCause ≠ 0) (k : State → State) :
    performInit s k = .next (driveNothing s) := by rw [performInit, unlessStopped_stopped h]

theorem performInit_running {s : State} (h : s.faultCause = 0) (k : State → State) :
    performInit s k = .next (k s) := by rw [performInit, unlessStopped_running h]

theorem rejectWord_stopped {s : State} (h : s.faultCause ≠ 0) (c : Cause) :
    rejectWord c s = .next (driveNothing s) := by rw [rejectWord, unlessStopped_stopped h]

theorem rejectWord_running {s : State} (h : s.faultCause = 0) (c : Cause) :
    rejectWord c s = .next (takeFault c s) := by rw [rejectWord, unlessStopped_running h]

end Sys2Proof.Machine
end

