-- ==== Sys2Proof/Laws/PerInstr.lean ====
section
/-!
SUPPORT. The per-instruction family EncodeThenDecode: the fields that spell a command are well-formed, and the decoder reads
the command back from its word, for every width and condition it can carry.
-/
namespace Sys2Proof.Laws.EncodeThenDecode

/-- The command's fields pass every check, and its word decodes to it. -/
def Statement (i : Instr) : Prop := (instrFields i).wellFormed = true ∧ decode (encode i) = .op i

end Sys2Proof.Laws.EncodeThenDecode

namespace Sys2Proof

theorem Laws.EncodeThenDecode.nor : Laws.EncodeThenDecode.Statement .nor := ⟨by decide, by decide⟩

theorem Laws.EncodeThenDecode.not : Laws.EncodeThenDecode.Statement .not := ⟨by decide, by decide⟩

theorem Laws.EncodeThenDecode.or : Laws.EncodeThenDecode.Statement .or := ⟨by decide, by decide⟩

theorem Laws.EncodeThenDecode.and : Laws.EncodeThenDecode.Statement .and := ⟨by decide, by decide⟩

theorem Laws.EncodeThenDecode.xor : Laws.EncodeThenDecode.Statement .xor := ⟨by decide, by decide⟩

theorem Laws.EncodeThenDecode.norb : Laws.EncodeThenDecode.Statement .norb := ⟨by decide, by decide⟩

theorem Laws.EncodeThenDecode.notb : Laws.EncodeThenDecode.Statement .notb := ⟨by decide, by decide⟩

theorem Laws.EncodeThenDecode.orb : Laws.EncodeThenDecode.Statement .orb := ⟨by decide, by decide⟩

theorem Laws.EncodeThenDecode.andb : Laws.EncodeThenDecode.Statement .andb := ⟨by decide, by decide⟩

theorem Laws.EncodeThenDecode.xorb : Laws.EncodeThenDecode.Statement .xorb := ⟨by decide, by decide⟩

theorem Laws.EncodeThenDecode.neg : Laws.EncodeThenDecode.Statement .neg := ⟨by decide, by decide⟩

theorem Laws.EncodeThenDecode.inc : Laws.EncodeThenDecode.Statement .inc := ⟨by decide, by decide⟩

theorem Laws.EncodeThenDecode.dec : Laws.EncodeThenDecode.Statement .dec := ⟨by decide, by decide⟩

theorem Laws.EncodeThenDecode.sel : Laws.EncodeThenDecode.Statement .sel := ⟨by decide, by decide⟩

theorem Laws.EncodeThenDecode.lutrd : Laws.EncodeThenDecode.Statement .lutrd := ⟨by decide, by decide⟩

theorem Laws.EncodeThenDecode.init : Laws.EncodeThenDecode.Statement .init := ⟨by decide, by decide⟩

theorem Laws.EncodeThenDecode.add (w : Width) : Laws.EncodeThenDecode.Statement (.add w) := by cases w <;> exact ⟨by decide, by decide⟩

theorem Laws.EncodeThenDecode.sub (w : Width) : Laws.EncodeThenDecode.Statement (.sub w) := by cases w <;> exact ⟨by decide, by decide⟩

theorem Laws.EncodeThenDecode.shl (w : Width) : Laws.EncodeThenDecode.Statement (.shl w) := by cases w <;> exact ⟨by decide, by decide⟩

theorem Laws.EncodeThenDecode.cmp (w : Width) : Laws.EncodeThenDecode.Statement (.cmp w) := by cases w <;> exact ⟨by decide, by decide⟩

theorem Laws.EncodeThenDecode.mul (w : Width) : Laws.EncodeThenDecode.Statement (.mul w) := by cases w <;> exact ⟨by decide, by decide⟩

theorem Laws.EncodeThenDecode.test (cc : Cond) : Laws.EncodeThenDecode.Statement (.test cc) := by cases cc <;> exact ⟨by decide, by decide⟩

end Sys2Proof
end

