-- ==== Sys2Proof/Laws/Scan.lean ====
section
/-!
SUPPORT. The closed forms of the comparison scan over an initialized table (45_flags_predicates R158), the reading of PF
under each parity rule, and the order the signed predicates give (R191).
-/
namespace Sys2Proof.Machine

/-- One more low bit of a number. -/
theorem mod_two_pow_succ (x n : Nat) : x % 2 ^ (n + 1) = x % 2 ^ n + 2 ^ n * (x.testBit n).toNat := by
  rw [Nat.mod_pow_succ, Nat.toNat_testBit]

/-- Two words compared on `n + 1` low bits: the new top bit decides unless it is equal. -/
theorem mod_succ_lt_iff (a b : Word) (n : Nat) :
    a.toNat % 2 ^ (n + 1) < b.toNat % 2 ^ (n + 1) ↔
      (a.getLsbD n = false ∧ b.getLsbD n = true) ∨
        (a.getLsbD n = b.getLsbD n ∧ a.toNat % 2 ^ n < b.toNat % 2 ^ n) := by
  have split : ∀ v : Word, v.toNat % 2 ^ (n + 1) = v.toNat % 2 ^ n + 2 ^ n * (v.getLsbD n).toNat := fun v => by
    rw [BitVec.getLsbD, mod_two_pow_succ]
  have ha := Nat.mod_lt a.toNat (Nat.two_pow_pos n)
  have hb := Nat.mod_lt b.toNat (Nat.two_pow_pos n)
  rw [split a, split b]
  cases a.getLsbD n <;> cases b.getLsbD n <;> simp <;> omega

/-- A word vanishes on `n + 1` low bits when it does on `n` and bit `n` is clear. -/
theorem mod_succ_eq_zero_iff (d : Word) (n : Nat) :
    d.toNat % 2 ^ (n + 1) = 0 ↔ d.toNat % 2 ^ n = 0 ∧ d.getLsbD n = false := by
  rw [BitVec.getLsbD, mod_two_pow_succ]
  have := Nat.two_pow_pos n
  cases d.toNat.testBit n with
  | false => simp
  | true => simp

/-- The exclusive or of bits `0` to `n-1`, of which only those below 8 count. -/
def lowParity (d : Word) : Nat → Bool
  | 0 => false
  | n + 1 => if n < 8 then lowParity d n ^^ d.getLsbD n else lowParity d n

/-- From 8 bits on, it is the parity of the low byte (45_flags_predicates R156). -/
theorem lowParity_byte (d : Word) {n : Nat} (h : 8 ≤ n) :
    lowParity d n = (d.getLsbD 0 ^^ d.getLsbD 1 ^^ d.getLsbD 2 ^^ d.getLsbD 3 ^^ d.getLsbD 4 ^^ d.getLsbD 5 ^^
      d.getLsbD 6 ^^ d.getLsbD 7) := by
  induction n, h using Nat.le_induction with
  | base => simp [lowParity]
  | succ n hn ih => rw [lowParity, if_neg (by omega), ih]

/-- Everything the scan holds after `n` bits, over an initialized table. -/
structure ScanAt (rule : PfRule) (a b : Word) (n : Nat) (z : Scan) : Prop where
  cf : z.flags.cf = decide (a.toNat % 2 ^ n < b.toNat % 2 ^ n)
  zf : z.flags.zf = decide ((a - b).toNat % 2 ^ n = 0)
  sf : z.flags.sf = (decide (0 < n) && (a - b).getLsbD (n - 1))
  carry : z.k = BitVec.carry n a (-b) false
  topA : z.topA = (decide (0 < n) && a.getLsbD (n - 1))
  topB : z.topB = (decide (0 < n) && b.getLsbD (n - 1))
  pf : rule = .toggleFromZero → z.flags.pf = lowParity (a - b) n
  pfOne : rule = .toggleFromOne → z.flags.pf = !lowParity (a - b) n
  pfSet : rule = .setBelowEight →
    z.flags.pf = (decide ((a - b).toNat % 2 ^ n ≠ 0) && decide ((a - b).toNat % 2 ^ n < 2 ^ 8))

/-- Reading (c) of the parity rule, one bit further. -/
theorem setBelowEight_succ (d : Word) (n : Nat) :
    (if d.getLsbD n then decide (n < 8) else decide (d.toNat % 2 ^ n ≠ 0) && decide (d.toNat % 2 ^ n < 2 ^ 8)) =
      (decide (d.toNat % 2 ^ (n + 1) ≠ 0) && decide (d.toNat % 2 ^ (n + 1) < 2 ^ 8)) := by
  rw [BitVec.getLsbD, mod_two_pow_succ]
  have hpos := Nat.two_pow_pos n
  have hlt := Nat.mod_lt d.toNat hpos
  cases d.toNat.testBit n with
  | false => simp
  | true =>
    simp only [if_true, Bool.toNat_true, Nat.mul_one]
    by_cases h : n < 8
    · have : 2 ^ n ≤ 2 ^ 7 := Nat.pow_le_pow_right (by omega) (by omega)
      simp [h]
      omega
    · have : 2 ^ 8 ≤ 2 ^ n := Nat.pow_le_pow_right (by omega) (by omega)
      simp [h]
      omega

/-- The scan's closed form, bit by bit (45_flags_predicates R152-R154, R158). -/
theorem scanLoop_at (rule : PfRule) (a b : Word) : ∀ n ≤ 32,
    ScanAt rule a b n (scanLoop rule powerTable a b (neg32 b) n)
  | 0, _ => by
    constructor <;> intros <;> subst_vars <;>
      simp [scanLoop, scanStart, pfStart, lowParity, Nat.mod_one, BitVec.carry_zero]
  | n + 1, h => by
    have hn : n < 32 := h
    have ih := scanLoop_at rule a b n (by omega)
    have hsum : (a - b).getLsbD n = (a.getLsbD n ^^ ((-b).getLsbD n ^^ BitVec.carry n a (-b) false)) := by
      rw [BitVec.sub_eq_add_neg, BitVec.getLsbD_add hn]
    have hbit : scanLoop rule powerTable a b (neg32 b) (n + 1) =
        { flags :=
            { cf := cfStep (scanLoop rule powerTable a b (neg32 b) n).flags.cf (a.getLsbD n) (b.getLsbD n)
              pf := pfStep rule (scanLoop rule powerTable a b (neg32 b) n).flags.pf ((a - b).getLsbD n) n
              zf := if (a - b).getLsbD n then false else (scanLoop rule powerTable a b (neg32 b) n).flags.zf
              sf := (a - b).getLsbD n
              ovf := (scanLoop rule powerTable a b (neg32 b) n).flags.ovf }
          k := BitVec.carry (n + 1) a (-b) false
          topA := a.getLsbD n
          topB := b.getLsbD n } := by
      rw [scanLoop, scanBit, bitSet_powerTable a hn, bitSet_powerTable b hn, bitSet_powerTable (neg32 b) hn,
        fullAdd_eq, ih.carry, neg32_eq, ← hsum, ← BitVec.carry_succ]
    rw [hbit]
    refine ⟨?_, ?_, ?_, rfl, ?_, ?_, ?_, ?_, ?_⟩
    · simp only [cfStep, ih.cf, mod_succ_lt_iff a b n]
      cases a.getLsbD n <;> cases b.getLsbD n <;> simp
    · simp only [ih.zf, mod_succ_eq_zero_iff (a - b) n]
      cases (a - b).getLsbD n <;> simp
    · simp
    · simp
    · simp
    · intro hr
      subst hr
      simp only [pfStep, ih.pf rfl, lowParity]
      cases (a - b).getLsbD n <;> by_cases h8 : n < 8 <;> simp [h8]
    · intro hr
      subst hr
      simp only [pfStep, ih.pfOne rfl, lowParity]
      cases (a - b).getLsbD n <;> by_cases h8 : n < 8 <;> simp [h8]
    · intro hr
      subst hr
      simp only [pfStep, ih.pfSet rfl]
      exact setBelowEight_succ (a - b) n

/-! ## The closed forms of the flags (R158) -/

variable (rule : PfRule) (a b : Word) (w : Width)

/-- CF is the unsigned borrow. -/
theorem compareW_cf : (compareW rule powerTable a b w).cf =
    decide (a.toNat % 2 ^ widthBits w < b.toNat % 2 ^ widthBits w) :=
  (scanLoop_at rule a b _ (widthBits_le w)).cf

/-- ZF says that the difference vanishes modulo `2^w`. -/
theorem compareW_zf : (compareW rule powerTable a b w).zf = decide ((a - b).toNat % 2 ^ widthBits w = 0) :=
  (scanLoop_at rule a b _ (widthBits_le w)).zf

/-- SF is bit `w-1` of the difference. -/
theorem compareW_sf : (compareW rule powerTable a b w).sf = (a - b).getLsbD (widthBits w - 1) := by
  have h8 := widthBits_pos w
  have hpos : 0 < widthBits w := by omega
  have h := (scanLoop_at rule a b _ (widthBits_le w)).sf
  simp only [hpos, decide_true, Bool.true_and] at h
  exact h

/-- OF is the signed overflow of the `w`-bit subtraction. -/
theorem compareW_ovf : (compareW rule powerTable a b w).ovf =
    ((a.getLsbD (widthBits w - 1) != b.getLsbD (widthBits w - 1)) &&
      ((a - b).getLsbD (widthBits w - 1) != a.getLsbD (widthBits w - 1))) := by
  have h8 := widthBits_pos w
  have hpos : 0 < widthBits w := by omega
  have h := scanLoop_at rule a b _ (widthBits_le w)
  have hA := h.topA
  have hB := h.topB
  have hS := h.sf
  simp only [hpos, decide_true, Bool.true_and] at hA hB hS
  simp only [compareW, overflowOf, hA, hB, hS]
  cases a.getLsbD (widthBits w - 1) <;> cases b.getLsbD (widthBits w - 1) <;>
    cases (a - b).getLsbD (widthBits w - 1) <;> rfl

/-- PF under the spec's default rule is the parity of the difference's low byte (R156). -/
theorem compareW_pf_default : (compareW .toggleFromZero powerTable a b w).pf =
    ((a - b).getLsbD 0 ^^ (a - b).getLsbD 1 ^^ (a - b).getLsbD 2 ^^ (a - b).getLsbD 3 ^^ (a - b).getLsbD 4 ^^
      (a - b).getLsbD 5 ^^ (a - b).getLsbD 6 ^^ (a - b).getLsbD 7) := by
  rw [← lowParity_byte (a - b) (widthBits_pos w)]
  exact (scanLoop_at .toggleFromZero a b _ (widthBits_le w)).pf rfl

/-- PF under reading (b) is its negation (93_implementation_defined I4). -/
theorem compareW_pf_toggleFromOne : (compareW .toggleFromOne powerTable a b w).pf =
    !(compareW .toggleFromZero powerTable a b w).pf := by
  have h1 := (scanLoop_at .toggleFromOne a b _ (widthBits_le w)).pfOne rfl
  have h0 := (scanLoop_at .toggleFromZero a b _ (widthBits_le w)).pf rfl
  simp only [compareW, pfEnd, h1, h0]

/-- PF under reading (c): the difference is not 0 and below `2^8` (93_implementation_defined I4). -/
theorem compareW_pf_setBelowEight : (compareW .setBelowEight powerTable a b w).pf =
    (decide ((a - b).toNat % 2 ^ widthBits w ≠ 0) && decide ((a - b).toNat % 2 ^ widthBits w < 2 ^ 8)) :=
  (scanLoop_at .setBelowEight a b _ (widthBits_le w)).pfSet rfl

/-- PF under no reading is the free function of the low operand bits. -/
theorem compareW_pf_free (lut : Vector Word 32) :
    (compareW .free lut a b w).pf = Config.pfFree w (lowBits w a) (lowBits w b) := rfl

/-! ## The signed order (R191) -/

/-- The top bit of a `w`-bit value says whether it is at least `2^(w-1)`. -/
theorem getLsbD_top (v : Word) : v.getLsbD (widthBits w - 1) =
    decide (2 ^ (widthBits w - 1) ≤ v.toNat % 2 ^ widthBits w) := by
  have h8 := widthBits_pos w
  have hw : widthBits w = widthBits w - 1 + 1 := by omega
  have hlt := Nat.mod_lt v.toNat (Nat.two_pow_pos (widthBits w - 1))
  rw [BitVec.getLsbD]
  conv_rhs => rw [hw, mod_two_pow_succ]
  cases v.toNat.testBit (widthBits w - 1)
  · simpa using hlt
  · simp

theorem signedLow_eq (v : Word) : signedLow w v =
    if 2 * (v.toNat % 2 ^ widthBits w) < 2 ^ widthBits w then ((v.toNat % 2 ^ widthBits w : Nat) : Int)
    else ((v.toNat % 2 ^ widthBits w : Nat) : Int) - (2 ^ widthBits w : Nat) := by
  rw [signedLow, BitVec.toInt_eq_toNat_cond, BitVec.toNat_setWidth]

/-- The difference modulo `2^w`. -/
theorem toNat_sub_mod : (a - b).toNat % 2 ^ widthBits w =
    (a.toNat % 2 ^ widthBits w + (2 ^ widthBits w - b.toNat % 2 ^ widthBits w)) % 2 ^ widthBits w := by
  have ha := a.isLt
  have hb := b.isLt
  rw [BitVec.toNat_sub]
  cases w <;> simp only [widthBits] <;> omega

/-- Two values below `2 * h` in two's complement: the sign of the wrapped difference, corrected by the overflow, is their
order. -/
theorem signed_order {h x y d : Nat} (hx : x < 2 * h) (hy : y < 2 * h) (hd : d = (x + (2 * h - y)) % (2 * h)) :
    (decide (h ≤ d) ^^ (decide (h ≤ x) != decide (h ≤ y) && decide (h ≤ d) != decide (h ≤ x))) =
      decide ((if 2 * x < 2 * h then (x : Int) else (x : Int) - (2 * h : Nat)) <
        if 2 * y < 2 * h then (y : Int) else (y : Int) - (2 * h : Nat)) := by
  have hval : (y ≤ x ∧ d = x - y) ∨ (x < y ∧ d = x + 2 * h - y) := by
    by_cases hxy : y ≤ x
    · refine .inl ⟨hxy, ?_⟩
      rw [hd, show x + (2 * h - y) = x - y + 2 * h by omega, Nat.add_mod_right, Nat.mod_eq_of_lt (by omega)]
    · refine .inr ⟨by omega, ?_⟩
      rw [hd, Nat.mod_eq_of_lt (by omega)]
      omega
  clear hd
  by_cases h1 : h ≤ x <;> by_cases h2 : h ≤ y <;> by_cases h3 : h ≤ d <;>
    simp only [h1, h2, h3, decide_true, decide_false, bne_self_eq_false, Bool.and_false, Bool.xor_false, Bool.bne_true,
      Bool.not_false, Bool.and_true] <;>
    first
    | exact (decide_eq_true (by split_ifs <;> omega)).symm
    | exact (decide_eq_false (by split_ifs <;> omega)).symm

/-- `SF xor OF` is the signed order of the low `w` bits (R158). -/
theorem compareW_signed_lt : ((compareW rule powerTable a b w).sf ^^ (compareW rule powerTable a b w).ovf) =
    decide (signedLow w a < signedLow w b) := by
  have h8 := widthBits_pos w
  have hw : 2 ^ widthBits w = 2 * 2 ^ (widthBits w - 1) := by
    rw [← pow_succ']
    congr 1
    omega
  have ha := Nat.mod_lt a.toNat (Nat.two_pow_pos (widthBits w))
  have hb := Nat.mod_lt b.toNat (Nat.two_pow_pos (widthBits w))
  have hd := toNat_sub_mod a b w
  rw [compareW_sf, compareW_ovf, getLsbD_top w a, getLsbD_top w b, getLsbD_top w (a - b), signedLow_eq, signedLow_eq]
  rw [hw] at ha hb hd ⊢
  exact signed_order ha hb hd

end Sys2Proof.Machine
end

