-- ==== Sys2Proof/Laws/Step.lean ====
section
/-!
SUPPORT. What a step can do, said once, and the packaging of an induction over a run.
-/
namespace Sys2Proof.Machine

/-! ## The step, input by input -/

theorem step_idle {s : State} (h : s.pending = []) : step s = .next s := by rw [step, h]

theorem step_reset {s : State} {rest : List HostInput} (h : s.pending = .reset :: rest) :
    step s = .next (resetEvent rest s) := by rw [step, h]

theorem step_command {s : State} {cmd : Command} {rest : List HostInput} {i : Instr}
    (h : s.pending = .command cmd :: rest) (hd : decode cmd.word = .op i) : step s = exec i (present cmd rest s) := by
  rw [step, h]
  simp only [hd]

theorem step_rejected {s : State} {cmd : Command} {rest : List HostInput} {c : Cause}
    (h : s.pending = .command cmd :: rest) (hd : decode cmd.word = .fault c) :
    step s = rejectWord c (present cmd rest s) := by
  rw [step, h]
  simp only [hd]

/-- Everything a step can do. -/
theorem step_cases {s t : State} (h : step s = .next t) :
    (s.pending = [] ∧ t = s) ∨
      (∃ rest, s.pending = .reset :: rest ∧ t = resetEvent rest s) ∨
      (∃ cmd rest i, s.pending = .command cmd :: rest ∧ decode cmd.word = .op i ∧
        exec i (present cmd rest s) = .next t) ∨
      (∃ cmd rest c, s.pending = .command cmd :: rest ∧ decode cmd.word = .fault c ∧
        rejectWord c (present cmd rest s) = .next t) := by
  cases hp : s.pending with
  | nil =>
    rw [step_idle hp] at h
    exact .inl ⟨rfl, (Host.Outcome.next.inj h).symm⟩
  | cons x rest =>
    cases x with
    | reset =>
      rw [step_reset hp] at h
      exact .inr (.inl ⟨rest, rfl, (Host.Outcome.next.inj h).symm⟩)
    | command cmd =>
      cases hd : decode cmd.word with
      | op i => exact .inr (.inr (.inl ⟨cmd, rest, i, rfl, hd, by rwa [step_command hp hd] at h⟩))
      | fault c => exact .inr (.inr (.inr ⟨cmd, rest, c, rfl, hd, by rwa [step_rejected hp hd] at h⟩))

/-! ## Commands always complete -/

/-- Every command answers a next state. -/
theorem exec_next (i : Instr) (s : State) : ∃ t, exec i s = .next t := by cases i <;> exact ⟨_, rfl⟩

/-- A stopped core performs no command, whichever it is (60_exceptions R219). -/
theorem exec_stopped {s : State} (h : s.faultCause ≠ 0) (i : Instr) : exec i s = .next (driveNothing s) := by
  cases i
  case init => exact performInit_stopped h _
  all_goals exact perform_stopped h _

/-! ## Runs -/

theorem run_zero (s : State) : Host.Core.run Sys2Proof.core 0 s = .next s := rfl

theorem run_succ {s t : State} (h : step s = .next t) (n : Nat) :
    Host.Core.run Sys2Proof.core (n + 1) s = Host.Core.run Sys2Proof.core n t := by
  have h' : Sys2Proof.core.step s = .next t := h
  exact (Host.Core.run.eq_2 Sys2Proof.core s n).trans (by rw [h'])

/-- A step answers a next state whatever the host presents. -/
theorem step_next (s : State) : ∃ t, step s = .next t := by
  cases hp : s.pending with
  | nil => exact ⟨_, step_idle hp⟩
  | cons x rest =>
    cases x with
    | reset => exact ⟨_, step_reset hp⟩
    | command cmd =>
      cases hd : decode cmd.word with
      | op i =>
        obtain ⟨t, ht⟩ := exec_next i (present cmd rest s)
        exact ⟨t, (step_command hp hd).trans ht⟩
      | fault c => exact ⟨_, step_rejected hp hd⟩

/-- What holds at the start of a run and is kept by every step holds at its end. -/
theorem run_keeps {P : State → Prop} (hstep : ∀ {s t}, P s → step s = .next t → P t) :
    ∀ {n : Nat} {s t : State}, P s → Host.Core.run Sys2Proof.core n s = .next t → P t
  | 0, _, _, hs, h => Host.Outcome.next.inj h ▸ hs
  | n + 1, s, t, hs, h => by
    obtain ⟨u, hu⟩ := step_next s
    rw [run_succ hu] at h
    exact run_keeps hstep (hstep hs hu) h

end Sys2Proof.Machine
end

