-- ==== Sys2Proof/Tests/Slice0.lean ====
section
/-!
SUPPORT. Tests, every expected value taken from spec/ and named where it stands there, and one witness for the hypotheses of
each statement of Certificates/Slice0/Obligations.lean that has any.
-/
namespace Sys2Proof.Tests
open Sys2Proof Sys2Proof.Machine

/-! ## Well-formedness: one ill-formed term for each check (30_encoding R57-R61) -/

theorem test_wf_accepts : CmdFields.wellFormed { rsv := 0, cc := 0, w := 2, op := 0x10 } = true := by decide

theorem test_wf_refuses_rsv : CmdFields.wellFormed { rsv := 1, cc := 0, w := 0, op := 0x01 } = false := by decide

theorem test_wf_refuses_unassigned_op : CmdFields.wellFormed { rsv := 0, cc := 0, w := 0, op := 0x0F } = false := by decide

theorem test_wf_refuses_unused_width : CmdFields.wellFormed { rsv := 0, cc := 0, w := 1, op := 0x01 } = false := by decide

theorem test_wf_refuses_unused_cond : CmdFields.wellFormed { rsv := 0, cc := 1, w := 2, op := 0x10 } = false := by decide

theorem test_wf_refuses_width_three : CmdFields.wellFormed { rsv := 0, cc := 0, w := 3, op := 0x10 } = false := by decide

theorem test_wf_refuses_cond_thirty : CmdFields.wellFormed { rsv := 0, cc := 30, w := 0, op := 0x18 } = false := by decide

/-! ## Decoding: each constructor's word, bit by bit, rsv cc w op (30_encoding R56-R59) -/

theorem test_decode_nor : decode 0b000_00000_00_000001 = .op .nor := by decide
theorem test_decode_not : decode 0b000_00000_00_000010 = .op .not := by decide
theorem test_decode_or : decode 0b000_00000_00_000011 = .op .or := by decide
theorem test_decode_and : decode 0b000_00000_00_000100 = .op .and := by decide
theorem test_decode_xor : decode 0b000_00000_00_000101 = .op .xor := by decide
theorem test_decode_norb : decode 0b000_00000_00_000110 = .op .norb := by decide
theorem test_decode_notb : decode 0b000_00000_00_000111 = .op .notb := by decide
theorem test_decode_orb : decode 0b000_00000_00_001000 = .op .orb := by decide
theorem test_decode_andb : decode 0b000_00000_00_001001 = .op .andb := by decide
theorem test_decode_xorb : decode 0b000_00000_00_001010 = .op .xorb := by decide
theorem test_decode_neg : decode 0b000_00000_00_001011 = .op .neg := by decide
theorem test_decode_inc : decode 0b000_00000_00_001100 = .op .inc := by decide
theorem test_decode_dec : decode 0b000_00000_00_001101 = .op .dec := by decide
theorem test_decode_sel : decode 0b000_00000_00_001110 = .op .sel := by decide
theorem test_decode_add : decode 0b000_00000_00_010000 = .op (.add .w8) := by decide
theorem test_decode_sub : decode 0b000_00000_01_010001 = .op (.sub .w16) := by decide
theorem test_decode_shl : decode 0b000_00000_10_010010 = .op (.shl .w32) := by decide
theorem test_decode_cmp : decode 0b000_00000_01_010011 = .op (.cmp .w16) := by decide
theorem test_decode_mul : decode 0b000_00000_10_010100 = .op (.mul .w32) := by decide
theorem test_decode_test : decode 0b000_11101_00_011000 = .op (.test .nle) := by decide
theorem test_decode_lutrd : decode 0b000_00000_00_011100 = .op .lutrd := by decide
theorem test_decode_init : decode 0b000_00000_00_011111 = .op .init := by decide

/-- The verdicts of 95_test_vectors V9. -/
theorem test_decode_verdicts :
    decode 0x0000 = .fault .illegalCommand ∧ decode 0x2001 = .fault .illegalCommand ∧
    decode 0x0041 = .fault .illegalCommand ∧ decode 0x0101 = .fault .illegalCommand ∧
    decode 0x000F = .fault .illegalCommand ∧ decode 0x003F = .fault .illegalCommand ∧
    decode 0x00D0 = .fault .badWidth ∧ decode 0x01D0 = .fault .illegalCommand ∧
    decode 0x0058 = .fault .illegalCommand ∧ decode 0x1E18 = .fault .badCond ∧ decode 0x1F18 = .fault .badCond := by decide

/-- The spellings of 30_encoding R68. -/
theorem test_spelling :
    encode (.add .w8) = 0x0010 ∧ encode (.shl .w32) = 0x0092 ∧ encode (.test .e) = 0x0818 ∧ encode .init = 0x001F ∧
    spelling (.add .w8) = "ADD.8" ∧ spelling (.test .ge) = "TEST.GE" := by decide

theorem test_table_word : decodeTableWord 16 0x0090 = some (.add .w32) ∧ decodeTableWord 16 0x2001 = none := by decide

/-! ## States and readings -/

/-- After reset and one INIT, with the operands on the port. -/
def ready (a b c : Word) : State :=
  { State.reset with lut := powerTable, lutValid := true, port := { word := 0, a := a, b := b, c := c } }

/-- The same after a CMP that left the record `f`. -/
def compared (f : Flags) : State := { ready 0 0 0 with flags := f, flagsValid := true }

/-- The record CMP.32 3, 5 leaves (95_test_vectors V6). -/
def flags35 : Flags := { cf := true, pf := true, zf := false, sf := true, ovf := false }

/-- Stopped by a LUT_INDEX fault. -/
def halted : State := { ready 0 0 0 with faultCause := 6 }

/-- A state with host inputs still to come. -/
def expecting (xs : List HostInput) (s : State) : State := { s with pending := xs }

/-- A command with no operands of interest. -/
def bare (word : CmdWord) : Command := { word := word, a := 0, b := 0, c := 0 }

/-- What a command drives on Y. -/
def outY (i : Instr) (s : State) : Option Word :=
  match exec i s with
  | .next t => t.y
  | .fault _ => none
  | .refused _ => none

/-- What a command drives on P. -/
def outP (i : Instr) (s : State) : Option Bool :=
  match exec i s with
  | .next t => t.p
  | .fault _ => none
  | .refused _ => none

/-- The cause recorded after a step. -/
def causeAfterStep (s : State) : Option (BitVec 3) :=
  match step s with
  | .next t => some t.faultCause
  | .fault _ => none
  | .refused _ => none

/-! ## Results (95_test_vectors V1-V8) -/

theorem test_nor : outY .nor (ready 0x0F0F0F0F 0x00FF00FF 0) = some 0xFFF0FFF0 := by decide
theorem test_not : outY .not (ready 0x12345678 0xFFFF0000 0) = some 0xEDCBA987 := by decide
theorem test_or : outY .or (ready 0x12345678 0xFFFF0000 0) = some 0xFFFF5678 := by decide
theorem test_and : outY .and (ready 0x12345678 0xFFFF0000 0) = some 0x12340000 := by decide
theorem test_xor : outY .xor (ready 0x12345678 0xFFFF0000 0) = some 0xEDCB5678 := by decide
theorem test_norb : outY .norb (ready 1 1 0) = some 0 := by decide
theorem test_notb : outY .notb (ready 2 3 0) = some 1 := by decide
theorem test_orb : outY .orb (ready 2 3 0) = some 1 := by decide
theorem test_andb : outY .andb (ready 1 1 0) = some 1 := by decide
theorem test_xorb : outY .xorb (ready 1 0 0) = some 1 := by decide
theorem test_neg : outY .neg (ready 0x80000000 0 0) = some 0x80000000 := by decide
theorem test_inc : outY .inc (ready 0x7FFFFFFF 0 0) = some 0x80000000 := by decide
theorem test_dec : outY .dec (ready 0 0 0) = some 0xFFFFFFFF := by decide
theorem test_sel_false : outY .sel (ready 0x11111111 0x22222222 0) = some 0x22222222 := by decide
theorem test_sel_true : outY .sel (ready 0x11111111 0x22222222 0x80000000) = some 0x11111111 := by decide
theorem test_add32 : outY (.add .w32) (ready 0x12345678 0x9ABCDEF0 0) = some 0xACF13568 := by decide +kernel
theorem test_sub32 : outY (.sub .w32) (ready 5 0x80000000 0) = some 0x80000005 := by decide +kernel
theorem test_shl32 : outY (.shl .w32) (ready 0x12345678 36 0) = some 0x23456780 := by decide +kernel
theorem test_cmp32 : outY (.cmp .w32) (ready 3 5 0) = some 0x0B := by decide +kernel
theorem test_cmp8 : outY (.cmp .w8) (ready 0x1FF 0xFF 0) = some 0x04 := by decide +kernel
theorem test_mul32 : outY (.mul .w32) (ready 0xFFFFFFF9 6 0) = some 0xFFFFFFD6 := by decide +kernel
theorem test_mul32_min : outY (.mul .w32) (ready 0x80000000 3 0) = some 0x80000000 := by decide +kernel
theorem test_test_l : outP (.test .l) (compared flags35) = some true := by decide
theorem test_test_np : outY (.test .np) (compared flags35) = some 0 := by decide
theorem test_lutrd : outY .lutrd (ready 31 0 0) = some 0x80000000 := by decide
theorem test_lutrd_seven : outY .lutrd (ready 7 0 0) = some 0x80 := by decide

/-! Width below 32: the low bits, whatever the draw gives the upper ones. -/

theorem test_add8 : ∃ v, outY (.add .w8) (ready 0x1F0 0x020 0) = some v ∧ v.toNat % 2 ^ 8 = 0x10 :=
  ⟨_, rfl, (addW_mod _ _ _ .w8).trans (by decide)⟩

theorem test_sub16 : ∃ v, outY (.sub .w16) (ready 0x1234 0x4321 0) = some v ∧ v.toNat % 2 ^ 16 = 0xCF13 :=
  ⟨_, rfl, (subW_mod _ _ _ .w16).trans (by decide)⟩

theorem test_shl8 : ∃ v, outY (.shl .w8) (ready 0x81 9 0) = some v ∧ v.toNat % 2 ^ 8 = 0x02 :=
  ⟨_, rfl, (shlW_mod _ _ _ .w8).trans (by decide)⟩

theorem outY_mul8 {s : State} (h : s.Ready) (hl : s.lut = powerTable) (hd : mulInDomain s.port.a s.port.b .w8 = true) :
    ∃ v, outY (.mul .w8) s = some v ∧ v.toNat % 2 ^ 8 = (s.port.a * s.port.b).toNat % 2 ^ 8 := by
  have he : exec (.mul .w8) s = .next (driveWidth .w8
      (splice .w8 (mulW s.lut (drawUpper .mul .w8 s) s.port.a s.port.b .w8) (drawUpper .mul .w8 s)) s) :=
    (perform_ready h _).trans (congrArg _ (if_pos hd))
  refine ⟨_, by rw [outY, he]; exact driveWidth_y .., (splice_mod .w8 _ _).trans ?_⟩
  rw [hl]
  exact mulW_mod _ _ _ .w8 hd

theorem test_mul8 : ∃ v, outY (.mul .w8) (ready 0xFFFFFFFD 5 0) = some v ∧ v.toNat % 2 ^ 8 = 0xF1 :=
  outY_mul8 (s := ready 0xFFFFFFFD 5 0) ⟨rfl, rfl⟩ rfl (by decide)

/-- All thirty predicates after CMP.32 3, 5, in the order of cc (95_test_vectors V7). -/
theorem test_predicates_after_3_5 :
    [Cond.o, .no, .b, .c, .nae, .ae, .nb, .nc, .e, .z, .ne, .nz, .be, .na, .a, .nbe, .s, .ns, .p, .pe, .np, .po, .l, .nge,
      .ge, .nl, .le, .ng, .g, .nle].map (fun cc => (condHolds cc flags35).toNat) =
    [0, 1, 1, 1, 1, 0, 0, 0, 0, 0, 1, 1, 1, 1, 0, 0, 1, 0, 1, 1, 0, 0, 1, 1, 0, 0, 1, 1, 0, 0] := by decide

/-! ## Faults and steps (95_test_vectors V9; 60_exceptions R220) -/

/-- From reset every command but INIT faults LUT_UNINIT, TEST and LUTRD 40 included; a decode fault comes first. -/
theorem test_faults_from_reset :
    causeAfterStep (State.reset.withFetchWord 16 0x0090) = some 4 ∧
    causeAfterStep (State.reset.withFetchWord 16 0x0818) = some 4 ∧
    causeAfterStep (expecting [.command { bare 0x001C with a := 40 }] State.reset) = some 4 ∧
    causeAfterStep (State.reset.withFetchWord 16 0x00D0) = some 2 ∧
    causeAfterStep (State.reset.withFetchWord 16 0x1E18) = some 3 ∧
    causeAfterStep (State.reset.withFetchWord 16 0x001F) = some 0 := ⟨rfl, rfl, rfl, rfl, rfl, rfl⟩

/-- After INIT: the faults of an operand, and of TEST before any CMP; a stopped core keeps its first cause. -/
theorem test_faults_after_init :
    causeAfterStep (expecting [.command { bare 0x001C with a := 32 }] (ready 0 0 0)) = some 6 ∧
    causeAfterStep (expecting [.command { bare 0x0012 with a := 1, b := 0xFFFFFFFF }] (ready 0 0 0)) = some 7 ∧
    causeAfterStep (expecting [.command (bare 0x0818)] (ready 0 0 0)) = some 5 ∧
    causeAfterStep (expecting [.command (bare 0x0000)] halted) = some 6 ∧
    causeAfterStep (expecting [.reset] halted) = some 0 := ⟨rfl, rfl, rfl, rfl, rfl⟩

/-! ## Witnesses for the hypotheses of the statements -/

theorem ready_is_ready (a b c : Word) : (ready a b c).Ready := ⟨rfl, rfl⟩

theorem ready_inv (a b c : Word) : (ready a b c).Inv where
  table _ := powerTable_get
  flagsAfterInit _ := rfl
  faultSilent h := absurd rfl h
  pOnY _ h := by cases h

/-- A presented command is the next input, whatever the state holds besides: the premise of every statement about a step. -/
theorem witness_presented (cmd : Command) (s : State) :
    (expecting [.command cmd] s).pending = .command cmd :: [] ∧ (expecting [.command cmd] s).faultCause = s.faultCause ∧
    (expecting [.command cmd] s).lutValid = s.lutValid ∧ (expecting [.command cmd] s).flagsValid = s.flagsValid :=
  ⟨rfl, rfl, rfl, rfl⟩

/-- ResetClearsTheCore. -/
theorem witness_reset_event : (expecting [.reset] halted).pending = .reset :: [] := rfl

/-- StepRunsTheDecodedCommand. -/
theorem witness_step_runs :
    (expecting [.command (bare 0x0090)] (ready 1 2 0)).pending = .command (bare 0x0090) :: [] ∧
    decode (bare 0x0090).word = .op (.add .w32) := ⟨rfl, by decide⟩

/-- RejectedWordTakesItsFault: each clause. -/
theorem witness_rejected :
    (expecting [.command (bare 0x2001)] State.reset).pending = .command (bare 0x2001) :: [] ∧
    State.reset.faultCause = 0 ∧ decode (bare 0x2001).word = .fault .illegalCommand ∧
    decode (bare 0x00D0).word = .fault .badWidth ∧ decode (bare 0x1E18).word = .fault .badCond ∧
    decode (bare 0x1F18).word = .fault .badCond := ⟨rfl, rfl, by decide, by decide, by decide, by decide⟩

/-- IdleCoreHoldsItsState. -/
theorem witness_idle : State.reset.pending = [] := rfl

/-- EveryStepKeepsTheInvariant. -/
theorem witness_invariant_step :
    (expecting [.command (bare 0x0093)] (ready 3 5 0)).Inv ∧
    ∃ t, step (expecting [.command (bare 0x0093)] (ready 3 5 0)) = .next t :=
  ⟨⟨(ready_inv 3 5 0).table, fun _ => rfl, fun h => absurd rfl h, fun _ h => by cases h⟩, step_next _⟩

/-- StoppedCorePerformsNothing: a command and a reset presented to a stopped core, and a step that clears the cause. -/
theorem witness_stopped :
    halted.faultCause ≠ 0 ∧ (expecting [.command (bare 0x001F)] halted).pending = .command (bare 0x001F) :: [] ∧
    (expecting [.reset] halted).pending = .reset :: [] ∧
    ∃ t, step (expecting [.reset] halted) = .next t ∧ t.faultCause = 0 := ⟨by decide, rfl, rfl, _, rfl, rfl⟩

/-- FaultIsStickyOverARun. -/
theorem witness_sticky :
    (expecting [.command (bare 0x001F)] halted).faultCause ≠ 0 ∧
    HostInput.reset ∉ (expecting [.command (bare 0x001F)] halted).pending := ⟨by decide, by decide⟩

/-- FaultChangesOnlyTheCause: both clauses. -/
theorem witness_fault :
    (ready 32 0 0).faultCause = 0 ∧ (∃ t, exec .lutrd (ready 32 0 0) = .next t ∧ t.faultCause ≠ 0) ∧
    ∃ t, step (expecting [.command (bare 0x2001)] (ready 0 0 0)) = .next t ∧ t.faultCause ≠ 0 :=
  ⟨rfl, ⟨_, rfl, by decide⟩, _, rfl, by decide⟩

/-- EveryCommandButInitNeedsTheTable, and the second clause of CommonChecks. -/
theorem witness_uninit : Instr.nor ≠ .init ∧ State.reset.faultCause = 0 ∧ State.reset.lutValid = false :=
  ⟨by decide, rfl, rfl⟩

/-- The first clause of CommonChecks. -/
theorem witness_common_stopped : halted.faultCause ≠ 0 := by decide

/-- TestNeedsACompare, and the first clause of TestDrivesThePredicate. -/
theorem witness_test_before_compare : (ready 0 0 0).Ready ∧ (ready 0 0 0).flagsValid = false := ⟨⟨rfl, rfl⟩, rfl⟩

/-- LutrdIndexAbove31Faults at the first such index, LutrdReadsTheEntry at both sides of the bound. -/
theorem witness_lutrd :
    (ready 32 0 0).Ready ∧ 31 < (ready 32 0 0).port.a.toNat ∧ (ready 31 0 0).Ready ∧ (ready 31 0 0).Inv ∧
    (ready 31 0 0).port.a.toNat < 32 ∧ (ready 31 0 0).port.a.toNat ≤ 31 :=
  ⟨ready_is_ready .., by decide, ready_is_ready .., ready_inv .., by decide, by decide⟩

/-- NegativeShiftAmountFaults at the two ends of the negative amounts. -/
theorem witness_shl_negative :
    (ready 1 0x80000000 0).Ready ∧ (ready 1 0x80000000 0).port.b.toInt < 0 ∧ (ready 1 0xFFFFFFFF 0).port.b.toInt < 0 :=
  ⟨ready_is_ready .., by decide, by decide⟩

/-- ChecksAreMadeInOrder: the decode clauses. -/
theorem witness_decode_order :
    (0x20D0 : CmdWord).toNat / 2 ^ 13 ≠ 0 ∧
    ((0x01D0 : CmdWord).toNat % 2 ^ 6 ∈ [0x10, 0x11, 0x12, 0x13, 0x14] ∧ (0x01D0 : CmdWord).toNat / 2 ^ 8 ≠ 0) ∧
    ((0x1E58 : CmdWord).toNat % 2 ^ 6 = 0x18 ∧ (0x1E58 : CmdWord).toNat / 2 ^ 6 % 2 ^ 2 ≠ 0) := by decide

/-- ChecksAreMadeInOrder: a stopped core, a rejected word, and each branch of the chain. -/
theorem witness_order :
    halted.faultCause ≠ 0 ∧ State.reset.faultCause = 0 ∧ decode (bare 0x2001).word = .fault .illegalCommand ∧
    (decode (bare 0x0818).word = .op (.test .e) ∧ State.reset.lutValid = false) ∧
    ((ready 0 0 0).faultCause = 0 ∧ (ready 0 0 0).lutValid = true ∧ (ready 0 0 0).flagsValid = false) ∧
    (decode (bare 0x001C).word = .op .lutrd ∧ 31 < ({ bare 0x001C with a := 32 } : Command).a.toNat) ∧
    (decode (bare 0x0012).word = .op (.shl .w8) ∧ ({ bare 0x0012 with b := 0x80000000 } : Command).b.toInt < 0) ∧
    (decode (bare 0x001F).word = .op .init) :=
  ⟨by decide, rfl, by decide, ⟨by decide, rfl⟩, ⟨rfl, rfl, rfl⟩, by decide, by decide, by decide⟩

/-- CommandsWriteOnlyTheirElements: each clause. -/
theorem witness_frame :
    (∃ t, exec .nor (ready 1 2 3) = .next t) ∧ Instr.nor ≠ .init ∧ ¬(Instr.nor matches .cmp _) ∧
    (∃ t, exec .nor halted = .next t) ∧ halted.faultCause ≠ 0 :=
  ⟨exec_next _ _, by decide, by simp, exec_next _ _, by decide⟩

/-- OutputsOfEveryCommand: a rejected word; a command that faults, INIT, TEST, CMP and another, none of them stopped. -/
theorem witness_outputs :
    ((expecting [.command (bare 0x2001)] (ready 0 0 0)).pending = .command (bare 0x2001) :: [] ∧
      decode (bare 0x2001).word = .fault .illegalCommand) ∧
    (ready 32 0 0).faultCause = 0 ∧ (∃ t, exec .lutrd (ready 32 0 0) = .next t ∧ t.faultCause ≠ 0) ∧
    (∃ t, exec .init State.reset = .next t ∧ t.faultCause = 0) ∧
    (∃ t, exec (.test .e) (compared flags35) = .next t ∧ t.faultCause = 0) ∧
    (∃ t, exec (.cmp .w8) (ready 0 0 0) = .next t ∧ t.faultCause = 0) ∧
    ∃ t, exec .nor (ready 0 0 0) = .next t ∧ t.faultCause = 0 :=
  ⟨⟨rfl, by decide⟩, rfl, ⟨_, rfl, by decide⟩, ⟨_, rfl, rfl⟩, ⟨_, rfl, rfl⟩, ⟨_, rfl, rfl⟩, _, rfl, rfl⟩

/-- IgnoredPortsHaveNoEffect. -/
theorem witness_ignored_ports :
    readsPort .not .b = false ∧ readsPort (.add .w8) .c = false ∧ readsPort (.test .e) .a = false ∧
    readsPort .lutrd .b = false ∧ readsPort .init .a = false := by decide

/-- OnlyTestReadsFlags. -/
theorem witness_not_test : ¬(Instr.cmp .w8 matches .test _) := by simp

/-- ContentsBeforeFirstWriteAreUnobservable. -/
theorem witness_before_first_write : State.reset.lutValid = false ∧ State.reset.flagsValid = false := ⟨rfl, rfl⟩

/-- The statements of results over a ready state. -/
theorem witness_ready : (ready 5 3 1).Ready ∧ (ready 5 3 0).Ready := ⟨ready_is_ready .., ready_is_ready ..⟩

/-- SelChoosesByTheCondition at a condition that is 0 and one whose sign bit alone is set. -/
theorem witness_sel : (ready 1 2 0).Ready ∧ (ready 1 2 0x80000000).Ready ∧ (ready 1 2 0x80000000).port.c ≠ 0 :=
  ⟨ready_is_ready .., ready_is_ready .., by decide⟩

/-- InitWritesThePowersOfTwo: both clauses; InitIsIdempotent. -/
theorem witness_init : halted.faultCause ≠ 0 ∧ State.reset.faultCause = 0 := ⟨by decide, rfl⟩

/-- The host's inputs of the next witness: INIT, NOR, LUTRD 31, and then a reset. -/
def initNorLutrd : List HostInput :=
  .command { word := 0x001F, a := 0, b := 0, c := 0 } :: [bare 0x0001].map .command ++
    .command { word := 0x001C, a := 31, b := 0, c := 0 } :: [.reset]

/-- LutrdAfterInitAndAnyCommands. -/
theorem witness_lutrd_after_init :
    (expecting initNorLutrd State.reset).faultCause = 0 ∧
    (expecting initNorLutrd State.reset).pending =
      .command { word := 0x001F, a := 0, b := 0, c := 0 } :: [bare 0x0001].map .command ++
        .command { word := 0x001C, a := 31, b := 0, c := 0 } :: [.reset] ∧
    (∃ t, Host.Core.run Sys2Proof.core ([bare 0x0001].length + 1) (expecting initNorLutrd State.reset) = .next t ∧
      t.faultCause = 0) ∧ (31 : Word).toNat ≤ 31 := ⟨rfl, rfl, ⟨_, rfl, rfl⟩, by decide⟩

/-- The width-taking results over a state that is ready and keeps the invariant, at each width. -/
theorem witness_width_results :
    (ready 0xFF 1 0).Ready ∧ (ready 0xFF 1 0).Inv ∧ Width.w32 = .w32 := ⟨ready_is_ready .., ready_inv .., rfl⟩

/-- ShlShiftsByTheAmountModuloTheWidth and ShlWraparoundAndIdentity where the amounts change sign. -/
theorem witness_shl :
    (ready 1 0x7FFFFFFF 0).Ready ∧ (ready 1 0x7FFFFFFF 0).Inv ∧ 0 ≤ (ready 1 0x7FFFFFFF 0).port.b.toInt ∧
    (ready 1 0x80000000 0).port.b.toInt < 0 ∧ 0 ≤ (0 : Word).toInt ∧ 0 ≤ (0x7FFFFFFF : Word).toInt :=
  ⟨ready_is_ready .., ready_inv .., by decide, by decide, by decide, by decide⟩

/-- CmpSetsTheFlags, CmpClosedForms, ComparisonLaws and OtherParityReadings, under the default parity rule. -/
theorem witness_cmp : (ready 3 5 0).Ready ∧ (ready 3 5 0).Inv ∧ (ready 3 5 0).pfRule = .toggleFromZero :=
  ⟨ready_is_ready .., ready_inv .., rfl⟩

/-- CmpIgnoresBitsAboveTheWidth: operands that differ only above the width. -/
theorem witness_cmp_low_bits :
    (ready 0x1FF 0xFF 0).Ready ∧ (ready 0x1FF 0xFF 0).Inv ∧
    (ready 0x1FF 0xFF 0).port.a.toNat % 2 ^ widthBits .w8 = (0xFF : Word).toNat % 2 ^ widthBits .w8 ∧
    (ready 0x1FF 0xFF 0).port.b.toNat % 2 ^ widthBits .w8 = (0x80FF : Word).toNat % 2 ^ widthBits .w8 :=
  ⟨ready_is_ready .., ready_inv .., by decide, by decide⟩

/-- The three statements of predicates, and the second clause of TestDrivesThePredicate. -/
theorem witness_compared : (compared flags35).Ready ∧ (compared flags35).flagsValid = true := ⟨⟨rfl, rfl⟩, rfl⟩

/-- OnlyFourPredicatesReadParity: both directions. -/
theorem witness_parity :
    (condHolds .p { flags35 with pf := false } ≠ condHolds .p flags35) ∧ Cond.p ∈ [Cond.p, .pe, .np, .po] := by decide

/-- FlagsKeepTheLastCompare: a SEL and a TEST after a CMP. -/
theorem witness_flags_kept :
    (∀ x ∈ (expecting [.command (bare 0x000E), .command (bare 0x0818)] (compared flags35)).pending,
      ∃ c, x = HostInput.command c ∧ ∀ w, decode c.word ≠ .op (.cmp w)) ∧
    ∃ t, Host.Core.run Sys2Proof.core 2
      (expecting [.command (bare 0x000E), .command (bare 0x0818)] (compared flags35)) = .next t := by
  refine ⟨fun x hx => ?_, _, rfl⟩
  simp only [expecting, List.mem_cons, List.not_mem_nil, or_false] at hx
  rcases hx with rfl | rfl
  · exact ⟨_, rfl, fun w => by cases w <;> decide⟩
  · exact ⟨_, rfl, fun w => by cases w <;> decide⟩

/-- MulIsMultiplicationModuloTheWidth: the largest magnitudes inside the domain at width 8, and the first outside it. -/
theorem witness_mul :
    (ready 255 0xFFFFFF01 0).Ready ∧ (ready 255 0xFFFFFF01 0).Inv ∧
    (ready 255 0xFFFFFF01 0).port.a.toInt.natAbs < 2 ^ widthBits .w8 ∧
    (ready 255 0xFFFFFF01 0).port.b.toInt.natAbs < 2 ^ widthBits .w8 ∧
    ¬(256 : Word).toInt.natAbs < 2 ^ widthBits .w8 ∧ (0x80000000 : Word).toInt.natAbs < 2 ^ widthBits .w32 :=
  ⟨ready_is_ready .., ready_inv .., by decide, by decide, by decide, by decide⟩

end Sys2Proof.Tests
end

/-!
The statements of 10_state: what one command can do, said once, and from it the invariant (O11); the commands that do not
read FLAGS (O23); and two executions that differ only in what the table and FLAGS hold before their first write (O24).
-/
namespace Sys2Proof.Machine

/-! ## What a command can do -/

/-- The states a command can answer: one constructor for each way the common checks and its own part can end. -/
inductive CommandEffect : Instr → State → State → Prop
  | stopped {i s} (h : s.faultCause ≠ 0) : CommandEffect i s (driveNothing s)
  | fault {i s} (c : Cause) (hi : i ≠ .init) (h : s.faultCause = 0) : CommandEffect i s (takeFault c s)
  | init {s} (h : s.faultCause = 0) : CommandEffect .init s (driveNothing (writeTable s))
  | compare {w s} (r : Flags) (h : s.Ready) : CommandEffect (.cmp w) s (driveWord (packFlags r) (writeFlags r s))
  | test {cc s} (h : s.Ready) (hv : s.flagsValid = true) :
      CommandEffect (.test cc) s (driveBit (condHolds cc s.flags) s)
  | word {i s} (v : Word) (hc : ∀ w, i ≠ .cmp w) (ht : ∀ cc, i ≠ .test cc) (h : s.Ready) :
      CommandEffect i s (driveWord v s)
  | widthResult {i s} (w : Width) (v : Word) (hc : ∀ w, i ≠ .cmp w) (ht : ∀ cc, i ≠ .test cc) (h : s.Ready) :
      CommandEffect i s (driveWidth w v s)

/-- A command under the common checks has the effect its own part has on a ready core. -/
theorem effect_of_perform {i : Instr} {s t : State} {k : State → State} (hi : i ≠ .init) (h : perform s k = .next t)
    (hk : s.Ready → CommandEffect i s (k s)) : CommandEffect i s t := by
  obtain ⟨hf, rfl⟩ | ⟨hf, -, rfl⟩ | ⟨hr, rfl⟩ := perform_cases h
  · exact .stopped hf
  · exact .fault _ hi hf
  · exact hk hr

/-- Everything INIT can do. -/
theorem execInit_effect {s t : State} (h : exec .init s = .next t) : CommandEffect .init s t := by
  by_cases hf : s.faultCause = 0
  · cases (performInit_running hf _).symm.trans h
    exact .init hf
  · cases (exec_stopped hf .init).symm.trans h
    exact .stopped hf

/-- Everything a command can do. -/
theorem exec_effect {i : Instr} {s t : State} (h : exec i s = .next t) : CommandEffect i s t := by
  cases i
  case init => exact execInit_effect h
  case cmp w => exact effect_of_perform nofun h (.compare _)
  case test cc =>
    refine effect_of_perform nofun h fun hr => ?_
    split
    · exact .test hr ‹_›
    · exact .fault _ nofun hr.1
  case lutrd =>
    refine effect_of_perform nofun h fun hr => ?_
    split
    · exact .fault _ nofun hr.1
    · exact .word _ nofun nofun hr
  case shl w =>
    refine effect_of_perform nofun h fun hr => ?_
    split
    · exact .fault _ nofun hr.1
    · exact .widthResult _ _ nofun nofun hr
  case mul w =>
    refine effect_of_perform nofun h fun hr => ?_
    split
    · exact .widthResult _ _ nofun nofun hr
    · exact .widthResult _ _ nofun nofun hr
  case add w => exact effect_of_perform nofun h (.widthResult _ _ nofun nofun)
  case sub w => exact effect_of_perform nofun h (.widthResult _ _ nofun nofun)
  all_goals exact effect_of_perform nofun h (.word _ nofun nofun)

/-- Only CMP writes FLAGS_VALID (10_state R32, R34). -/
theorem exec_keeps_flagsValid {i : Instr} {s t : State} (hc : ∀ w, i ≠ .cmp w) (h : exec i s = .next t) :
    t.flagsValid = s.flagsValid := by
  cases exec_effect h with
  | compare r hr => exact absurd rfl (hc _)
  | widthResult w v => exact driveWidth_flagsValid s w v
  | stopped | fault | init | test | word => rfl

/-- Every command but INIT needs the table (60_exceptions R214). -/
theorem exec_uninit {i : Instr} {s : State} (hi : i ≠ .init) (hf : s.faultCause = 0) (hv : s.lutValid = false) :
    exec i s = .next (takeFault .lutUninit s) := by
  cases i
  case init => exact absurd rfl hi
  all_goals exact perform_uninit hf hv _

/-- TEST needs a CMP before it (60_exceptions R215). -/
theorem execTest_undefined {s : State} (hr : s.Ready) (hv : s.flagsValid = false) (cc : Cond) :
    exec (.test cc) s = .next (takeFault .flagsUndefined s) :=
  (perform_ready hr _).trans (by simp [hv])

/-! ## The invariant -/

section Invariant

variable {s t : State}

/-- A state with the same table and validity bits keeps the invariant when its outputs obey the two rules on them. -/
theorem inv_of_same_table (hs : s.Inv) (hl : t.lut = s.lut) (hv : t.lutValid = s.lutValid)
    (hf : t.flagsValid = s.flagsValid) (hsilent : t.faultCause ≠ 0 → t.y = none ∧ t.p = none)
    (hp : ∀ b, t.p = some b → t.y = some (wordOfBit b)) : t.Inv where
  table h i := by rw [hl]; exact hs.table (hv ▸ h) i
  flagsAfterInit h := by rw [hv]; exact hs.flagsAfterInit (hf ▸ h)
  faultSilent := hsilent
  pOnY := hp

theorem inv_driveNothing (hs : s.Inv) : (driveNothing s).Inv :=
  inv_of_same_table hs rfl rfl rfl (fun _ => ⟨rfl, rfl⟩) nofun

theorem inv_takeFault (c : Cause) (hs : s.Inv) : (takeFault c s).Inv :=
  inv_of_same_table hs rfl rfl rfl (fun _ => ⟨rfl, rfl⟩) nofun

theorem inv_driveWord (v : Word) (hf : s.faultCause = 0) (hs : s.Inv) : (driveWord v s).Inv :=
  inv_of_same_table hs rfl rfl rfl (absurd hf) nofun

theorem inv_driveBit (b : Bool) (hf : s.faultCause = 0) (hs : s.Inv) : (driveBit b s).Inv :=
  inv_of_same_table hs rfl rfl rfl (absurd hf) fun _ h => by cases h; rfl

theorem inv_driveWidth (w : Width) (v : Word) (hf : s.faultCause = 0) (hs : s.Inv) : (driveWidth w v s).Inv :=
  inv_of_same_table hs (by simp) (by simp) (by simp) (by simp [hf]) (by simp)

theorem inv_present (cmd : Command) (rest : List HostInput) (hs : s.Inv) : (present cmd rest s).Inv :=
  inv_of_same_table hs rfl rfl rfl hs.faultSilent hs.pOnY

/-- INIT's write establishes the first clause (41_bitpos_lut R100, R102). -/
theorem inv_writeTable (hs : s.Inv) : (writeTable s).Inv where
  table _ := tableSet_of_lut_eq rfl
  flagsAfterInit _ := rfl
  faultSilent := hs.faultSilent
  pOnY := hs.pOnY

/-- CMP's write keeps the second clause, since CMP runs on an initialized table only (60_exceptions R214). -/
theorem inv_writeFlags (f : Flags) (hv : s.lutValid = true) (hs : s.Inv) : (writeFlags f s).Inv where
  table := hs.table
  flagsAfterInit _ := hv
  faultSilent := hs.faultSilent
  pOnY := hs.pOnY

/-- A reset meets the invariant from any state: nothing is valid and nothing is driven (70_reset R230). -/
theorem inv_resetEvent (rest : List HostInput) (s : State) : (resetEvent rest s).Inv where
  table := by simp
  flagsAfterInit := by simp
  faultSilent := by simp
  pOnY := by simp

theorem inv_exec {i : Instr} (hs : s.Inv) (h : exec i s = .next t) : t.Inv := by
  cases exec_effect h with
  | stopped _ => exact inv_driveNothing hs
  | fault c => exact inv_takeFault c hs
  | init _ => exact inv_driveNothing (inv_writeTable hs)
  | compare r hr => exact inv_driveWord _ hr.1 (inv_writeFlags r hr.2 hs)
  | test hr _ => exact inv_driveBit _ hr.1 hs
  | word v _ _ hr => exact inv_driveWord v hr.1 hs
  | widthResult w v _ _ hr => exact inv_driveWidth w v hr.1 hs

theorem inv_rejectWord {c : Cause} (hs : s.Inv) (h : rejectWord c s = .next t) : t.Inv := by
  by_cases hf : s.faultCause = 0
  · cases (rejectWord_running hf c).symm.trans h
    exact inv_takeFault c hs
  · cases (rejectWord_stopped hf c).symm.trans h
    exact inv_driveNothing hs

end Invariant

/-- Settles O11: each operation a step can perform keeps the invariant. -/
theorem everyStepKeepsTheInvariant : Obligations.EveryStepKeepsTheInvariant := by
  intro s t hs h
  obtain ⟨-, rfl⟩ | ⟨rest, -, rfl⟩ | ⟨cmd, rest, i, -, -, hx⟩ | ⟨cmd, rest, c, -, -, hx⟩ := step_cases h
  · exact hs
  · exact inv_resetEvent rest s
  · exact inv_exec (inv_present cmd rest hs) hx
  · exact inv_rejectWord (inv_present cmd rest hs) hx

/-! ## Commands that do not read FLAGS -/

/-- The same state with other contents of FLAGS. -/
def withFlags (f : Flags) (s : State) : State := { s with flags := f }

section WithFlags

variable {f : Flags} {s t : State}

theorem driveWidth_withFlags (w : Width) (v : Word) :
    driveWidth w v (withFlags f s) = withFlags f (driveWidth w v s) := by cases w <;> rfl

theorem ite_withFlags {c : Prop} [Decidable c] {a b a' b' : State} (ha : a' = withFlags f a) (hb : b' = withFlags f b) :
    (if c then a' else b') = withFlags f (if c then a else b) := by
  rw [ha, hb, apply_ite (withFlags f)]

/-- The common checks do not read FLAGS, so a command reads them only in its own part. -/
theorem perform_withFlags {k : State → State} (h : perform s k = .next t)
    (hk : s.Ready → k (withFlags f s) = withFlags f (k s)) : perform (withFlags f s) k = .next (withFlags f t) := by
  obtain ⟨hf, rfl⟩ | ⟨hf, hv, rfl⟩ | ⟨hr, rfl⟩ := perform_cases h
  · exact perform_stopped (s := withFlags f s) hf k
  · exact perform_uninit (s := withFlags f s) hf hv k
  · rw [perform_ready (s := withFlags f s) hr, hk hr]

theorem performInit_withFlags {k : State → State} (h : performInit s k = .next t)
    (hk : k (withFlags f s) = withFlags f (k s)) : performInit (withFlags f s) k = .next (withFlags f t) := by
  by_cases hf : s.faultCause = 0
  · cases (performInit_running hf k).symm.trans h
    rw [performInit_running (s := withFlags f s) hf, hk]
  · cases (performInit_stopped hf k).symm.trans h
    exact performInit_stopped (s := withFlags f s) hf k

/-- A command that neither reads nor writes FLAGS runs the same on other contents and keeps them (10_state R25, R34). -/
theorem exec_withFlags {i : Instr} (ht : ∀ cc, i ≠ .test cc) (hc : ∀ w, i ≠ .cmp w) (h : exec i s = .next t) :
    exec i (withFlags f s) = .next (withFlags f t) := by
  cases i
  case test cc => exact absurd rfl (ht cc)
  case cmp w => exact absurd rfl (hc w)
  case init => exact performInit_withFlags h rfl
  case add w => exact perform_withFlags h fun _ => driveWidth_withFlags ..
  case sub w => exact perform_withFlags h fun _ => driveWidth_withFlags ..
  case shl w => exact perform_withFlags h fun _ => ite_withFlags rfl (driveWidth_withFlags ..)
  case mul w => exact perform_withFlags h fun _ => ite_withFlags (driveWidth_withFlags ..) (driveWidth_withFlags ..)
  case lutrd => exact perform_withFlags h fun _ => ite_withFlags rfl rfl
  all_goals exact perform_withFlags h fun _ => rfl

/-- CMP on a ready core overwrites FLAGS whatever they hold (45_flags_predicates R159). -/
theorem execCmp_withFlags {w : Width} (hr : s.Ready) (h : exec (.cmp w) s = .next t) :
    exec (.cmp w) (withFlags f s) = .next t := by
  cases (perform_ready hr _).symm.trans h
  exact perform_ready (s := withFlags f s) hr _

end WithFlags

/-- Settles O23: CMP on a ready core overwrites FLAGS, and every other command but TEST carries them along. -/
theorem onlyTestReadsFlags : Obligations.OnlyTestReadsFlags := by
  intro i f s hi
  obtain ⟨t, ht⟩ := exec_next i s
  refine ⟨t, ht, ?_⟩
  by_cases hc : ∃ w, i = .cmp w
  · obtain ⟨w, rfl⟩ := hc
    by_cases hr : s.Ready
    · exact .inl (execCmp_withFlags hr ht)
    · exact .inr (perform_withFlags ht fun h => absurd h hr)
  · exact .inr (exec_withFlags (fun cc e => hi (e ▸ rfl)) (fun w e => hc ⟨w, e⟩) ht)

/-! ## What is held before the first write -/

/-- The second state differs from the first at most in what the table and FLAGS hold while not yet written. -/
inductive AgreeOnWritten (s : State) : State → Prop
  | intro (l : Vector Word 32) (f : Flags) (hl : s.lutValid = true → l = s.lut)
      (hf : s.flagsValid = true → f = s.flags) : AgreeOnWritten s { s with lut := l, flags := f }

section AgreeOnWritten

variable {s s' t t' : State}

theorem agreeOnWritten_refl (s : State) : AgreeOnWritten s s := .intro s.lut s.flags (fun _ => rfl) fun _ => rfl

theorem agreeOnWritten_withFlags (f : Flags) (hv : s.flagsValid = false) : AgreeOnWritten s (withFlags f s) :=
  .intro s.lut f (fun _ => rfl) (by simp [hv])

theorem agreeOnWritten_driveNothing (h : AgreeOnWritten s s') : AgreeOnWritten (driveNothing s) (driveNothing s') := by
  cases h with
  | intro l f hl hf => exact .intro l f hl hf

theorem agreeOnWritten_takeFault (c : Cause) (h : AgreeOnWritten s s') :
    AgreeOnWritten (takeFault c s) (takeFault c s') := by
  cases h with
  | intro l f hl hf => exact .intro l f hl hf

theorem agreeOnWritten_writeTable (h : AgreeOnWritten s s') : AgreeOnWritten (writeTable s) (writeTable s') := by
  cases h with
  | intro l f hl hf => exact .intro powerTable f (fun _ => rfl) hf

theorem agreeOnWritten_present (cmd : Command) (rest : List HostInput) (h : AgreeOnWritten s s') :
    AgreeOnWritten (present cmd rest s) (present cmd rest s') := by
  cases h with
  | intro l f hl hf => exact .intro l f hl hf

/-- The draws after a reset have the same number in both, so they are equal (notes/assumptions/6.md). -/
theorem agreeOnWritten_resetEvent (rest : List HostInput) (h : AgreeOnWritten s s') :
    AgreeOnWritten (resetEvent rest s) (resetEvent rest s') := by
  cases h
  exact agreeOnWritten_refl _

theorem AgreeOnWritten.faultCause_eq (h : AgreeOnWritten s s') : s'.faultCause = s.faultCause := by cases h; rfl

theorem AgreeOnWritten.lutValid_eq (h : AgreeOnWritten s s') : s'.lutValid = s.lutValid := by cases h; rfl

theorem AgreeOnWritten.pending_eq (h : AgreeOnWritten s s') : s'.pending = s.pending := by cases h; rfl

/-- On a ready core the table is written, so only FLAGS can differ, and only before the first CMP. -/
theorem AgreeOnWritten.eq_or_withFlags (h : AgreeOnWritten s s') (hr : s.Ready) :
    s' = s ∨ s.flagsValid = false ∧ ∃ f, s' = withFlags f s := by
  cases h with
  | intro l f hl hf =>
    obtain rfl := hl hr.2
    by_cases hv : s.flagsValid = true
    · obtain rfl := hf hv
      exact .inl rfl
    · exact .inr ⟨Bool.eq_false_of_not_eq_true hv, f, rfl⟩

/-- On a ready core before the first CMP no command observes what FLAGS hold: TEST faults, CMP overwrites them, and the
others do not read them. -/
theorem exec_withFlags_agree {f : Flags} {i : Instr} (hr : s.Ready) (hv : s.flagsValid = false)
    (h : exec i s = .next t) : ∃ t', exec i (withFlags f s) = .next t' ∧ AgreeOnWritten t t' := by
  by_cases ht : ∃ cc, i = .test cc
  · obtain ⟨cc, rfl⟩ := ht
    cases (execTest_undefined hr hv cc).symm.trans h
    exact ⟨_, execTest_undefined (s := withFlags f s) hr hv cc,
      agreeOnWritten_takeFault _ (agreeOnWritten_withFlags f hv)⟩
  by_cases hc : ∃ w, i = .cmp w
  · obtain ⟨w, rfl⟩ := hc
    exact ⟨t, execCmp_withFlags hr h, agreeOnWritten_refl t⟩
  · have hc' : ∀ w, i ≠ .cmp w := fun w e => hc ⟨w, e⟩
    exact ⟨_, exec_withFlags (fun cc e => ht ⟨cc, e⟩) hc' h,
      agreeOnWritten_withFlags f ((exec_keeps_flagsValid hc' h).trans hv)⟩

/-- INIT writes the table whatever it holds. -/
theorem execInit_agree (ha : AgreeOnWritten s s') (h : exec .init s = .next t) (hf : s.faultCause = 0) :
    ∃ t', exec .init s' = .next t' ∧ AgreeOnWritten t t' := by
  cases (performInit_running hf _).symm.trans h
  exact ⟨_, performInit_running (ha.faultCause_eq.trans hf) _,
    agreeOnWritten_driveNothing (agreeOnWritten_writeTable ha)⟩

/-- A command from two states that agree answers two states that agree. -/
theorem exec_agree {i : Instr} (ha : AgreeOnWritten s s') (h : exec i s = .next t) :
    ∃ t', exec i s' = .next t' ∧ AgreeOnWritten t t' := by
  by_cases hf : s.faultCause = 0
  case neg =>
    cases (exec_stopped hf i).symm.trans h
    exact ⟨_, exec_stopped (ha.faultCause_eq ▸ hf) i, agreeOnWritten_driveNothing ha⟩
  by_cases hi : i = .init
  · subst hi
    exact execInit_agree ha h hf
  cases hv : s.lutValid with
  | false =>
    cases (exec_uninit hi hf hv).symm.trans h
    exact ⟨_, exec_uninit hi (ha.faultCause_eq.trans hf) (ha.lutValid_eq.trans hv), agreeOnWritten_takeFault _ ha⟩
  | true =>
    obtain rfl | ⟨hfv, f, rfl⟩ := ha.eq_or_withFlags ⟨hf, hv⟩
    · exact ⟨t, h, agreeOnWritten_refl t⟩
    · exact exec_withFlags_agree ⟨hf, hv⟩ hfv h

theorem rejectWord_agree {c : Cause} (ha : AgreeOnWritten s s') (h : rejectWord c s = .next t) :
    ∃ t', rejectWord c s' = .next t' ∧ AgreeOnWritten t t' := by
  by_cases hf : s.faultCause = 0
  · cases (rejectWord_running hf c).symm.trans h
    exact ⟨_, rejectWord_running (ha.faultCause_eq.trans hf) c, agreeOnWritten_takeFault c ha⟩
  · cases (rejectWord_stopped hf c).symm.trans h
    exact ⟨_, rejectWord_stopped (ha.faultCause_eq ▸ hf) c, agreeOnWritten_driveNothing ha⟩

/-- A step from two states that agree answers two states that agree. -/
theorem step_agree (ha : AgreeOnWritten s s') (h : step s = .next t) :
    ∃ t', step s' = .next t' ∧ AgreeOnWritten t t' := by
  obtain ⟨hp, rfl⟩ | ⟨rest, hp, rfl⟩ | ⟨cmd, rest, i, hp, hd, hx⟩ | ⟨cmd, rest, c, hp, hd, hx⟩ := step_cases h
  · exact ⟨_, step_idle (ha.pending_eq.trans hp), ha⟩
  · exact ⟨_, step_reset (ha.pending_eq.trans hp), agreeOnWritten_resetEvent rest ha⟩
  · rw [step_command (ha.pending_eq.trans hp) hd]
    exact exec_agree (agreeOnWritten_present cmd rest ha) hx
  · rw [step_rejected (ha.pending_eq.trans hp) hd]
    exact rejectWord_agree (agreeOnWritten_present cmd rest ha) hx

theorem observedBy_agree (hs : AgreeOnWritten s s') (ht : AgreeOnWritten t t') :
    observedBy s' t' = observedBy s t := by
  cases hs
  cases ht
  rfl

/-- A run's observation is its first step's and then the rest's. -/
theorem observe_succ (h : step s = .next t) (n : Nat) :
    observe (n + 1) s = (observedBy s t ++ (observe n t).1, (observe n t).2) := by
  rw [observe, h]

/-- Runs from two states that agree observe the same and end in states that agree. -/
theorem observe_agree (n : Nat) (ha : AgreeOnWritten s s') :
    (observe n s').1 = (observe n s).1 ∧ AgreeOnWritten (observe n s).2 (observe n s').2 := by
  induction n generalizing s s' with
  | zero => exact ⟨rfl, ha⟩
  | succ n ih =>
    obtain ⟨t, ht⟩ := step_next s
    obtain ⟨t', ht', hta⟩ := step_agree ha ht
    obtain ⟨hout, hend⟩ := ih hta
    rw [observe_succ ht, observe_succ ht']
    exact ⟨by rw [observedBy_agree ha hta, hout], hend⟩

end AgreeOnWritten

/-- Settles O24: with neither written, states that differ in both contents agree, and every step keeps the agreement. -/
theorem contentsBeforeFirstWriteAreUnobservable : Obligations.ContentsBeforeFirstWriteAreUnobservable := by
  intro n s l f hl hf
  have ha : AgreeOnWritten s { s with lut := l, flags := f } := .intro l f (by simp [hl]) (by simp [hf])
  obtain ⟨hout, hend⟩ := observe_agree n ha
  exact ⟨hout, hend.faultCause_eq⟩

end Sys2Proof.Machine

namespace Sys2Proof.Machine

/-- Settles O6: the command case of the step; the presented state is the one the statement writes out. -/
theorem stepRunsTheDecodedCommand : Obligations.StepRunsTheDecodedCommand := by
  intro s cmd rest i hpending hdecode
  exact step_command hpending hdecode

end Sys2Proof.Machine

/-!
The statements of 30_encoding: the decoder accepts exactly the encodings (O3), by the checks of R65 in their order (O2) and on
exactly the well-formed fields (O4), with a few words written out (O1); which outputs a command drives (O21); and the ports a
command does not read (O22).
-/
namespace Sys2Proof

theorem bitVec_toNat_eq_zero {n : Nat} {x : BitVec n} : x.toNat = 0 ↔ x = 0 := by
  rw [← BitVec.toNat_inj]
  rfl

/-! ## The fields of a word as numbers (30_encoding R56) -/

section CmdFields

variable (cmd : CmdWord)

theorem cmdFields_rsv_toNat : (cmdFields cmd).rsv.toNat = cmd.toNat / 2 ^ 13 := by
  have := cmd.isLt
  simp only [cmdFields, BitVec.extractLsb'_toNat, Nat.shiftRight_eq_div_pow]
  omega

theorem cmdFields_cc_toNat : (cmdFields cmd).cc.toNat = cmd.toNat / 2 ^ 8 % 2 ^ 5 := by
  simp only [cmdFields, BitVec.extractLsb'_toNat, Nat.shiftRight_eq_div_pow]

theorem cmdFields_w_toNat : (cmdFields cmd).w.toNat = cmd.toNat / 2 ^ 6 % 2 ^ 2 := by
  simp only [cmdFields, BitVec.extractLsb'_toNat, Nat.shiftRight_eq_div_pow]

theorem cmdFields_op_toNat : (cmdFields cmd).op.toNat = cmd.toNat % 2 ^ 6 := by
  simp only [cmdFields, BitVec.extractLsb'_toNat, Nat.shiftRight_zero]

end CmdFields

/-! ## The opcode map by kinds of operation (30_encoding R57) -/

/-- The op values of the width-taking operations. -/
abbrev widthOps : List Nat := [0x10, 0x11, 0x12, 0x13, 0x14]

/-- The op values of the operations that use neither the width nor the condition field. -/
abbrev plainOps : List Nat := [1, 2, 3, 4, 5, 6, 7, 8, 9, 0xA, 0xB, 0xC, 0xD, 0xE, 0x1C, 0x1F]

theorem notMem_widthOps_of_mem_plainOps : ∀ n ∈ plainOps, n ∉ widthOps := by decide

section OpForm

variable {op : BitVec 6}

theorem opForm_of_mem_widthOps (h : op.toNat ∈ widthOps) : ∃ mk, opForm op = some (.widthTaking mk) := by
  unfold opForm
  split <;> simp_all

theorem opForm_of_eq_test (h : op.toNat = 0x18) : opForm op = some .condTaking := by
  unfold opForm
  simp [h]

theorem opForm_of_mem_plainOps (h : op.toNat ∈ plainOps) : ∃ i, opForm op = some (.plain i) := by
  unfold opForm
  split <;> simp_all

theorem opForm_of_unassigned (hw : op.toNat ∉ widthOps) (ht : op.toNat ≠ 0x18) (hp : op.toNat ∉ plainOps) :
    opForm op = none := by
  unfold opForm
  split <;> simp_all

end OpForm

theorem widthOfCode_eq_none {c : BitVec 2} : widthOfCode c = none ↔ c.toNat = 3 := by
  revert c
  decide

theorem condOfCode_eq_none {c : BitVec 5} : condOfCode c = none ↔ 30 ≤ c.toNat := by
  revert c
  decide

/-- Every width code but the reserved one is some width's (30_encoding R58). -/
theorem exists_widthCode {c : BitVec 2} (h : c.toNat ≠ 3) : ∃ w, c = widthCode w :=
  (Option.ne_none_iff_exists'.1 (mt widthOfCode_eq_none.1 h)).imp fun _ => widthOfCode_eq_some.1

/-- Every condition code but the two reserved ones is some condition's (30_encoding R59). -/
theorem exists_condCode {c : BitVec 5} (h : ¬30 ≤ c.toNat) : ∃ cc, c = condCode cc :=
  (Option.ne_none_iff_exists'.1 (mt condOfCode_eq_none.1 h)).imp fun _ => condOfCode_eq_some.1

/-! ## What the decoder does, kind by kind (30_encoding R65) -/

section DecodeFields

variable {f : CmdFields}

theorem decodeFields_of_rsv (hr : f.rsv ≠ 0) : decodeFields f = .fault .illegalCommand := if_pos hr

theorem decodeFields_of_unassigned (hf : opForm f.op = none) : decodeFields f = .fault .illegalCommand := by
  simp [decodeFields, hf]

theorem decodeFields_plain {i : Instr} (hr : f.rsv = 0) (hf : opForm f.op = some (.plain i)) :
    decodeFields f = if f.w ≠ 0 ∨ f.cc ≠ 0 then .fault .illegalCommand else .op i := by
  simp [decodeFields, hr, hf]

theorem decodeFields_widthTaking {mk : Width → Instr} (hr : f.rsv = 0) (hf : opForm f.op = some (.widthTaking mk)) :
    decodeFields f =
      if f.cc ≠ 0 then .fault .illegalCommand else (widthOfCode f.w).elim (.fault .badWidth) fun w => .op (mk w) := by
  cases hw : widthOfCode f.w <;> simp [decodeFields, hr, hf, hw]

theorem decodeFields_condTaking (hr : f.rsv = 0) (hf : opForm f.op = some .condTaking) :
    decodeFields f =
      if f.w ≠ 0 then .fault .illegalCommand else (condOfCode f.cc).elim (.fault .badCond) fun cc => .op (.test cc) := by
  cases hc : condOfCode f.cc <;> simp [decodeFields, hr, hf, hc]

theorem decodeFields_plain_eq_op {i j : Instr} (hr : f.rsv = 0) (hf : opForm f.op = some (.plain j)) :
    decodeFields f = .op i ↔ f.w = 0 ∧ f.cc = 0 ∧ j = i := by
  rw [decodeFields_plain hr hf]
  by_cases hu : f.w = 0 ∧ f.cc = 0
  · simp [hu]
  · rw [if_pos (by simpa only [not_and_or] using hu)]
    exact ⟨nofun, fun h => absurd ⟨h.1, h.2.1⟩ hu⟩

theorem decodeFields_widthTaking_eq_op {i : Instr} {mk : Width → Instr} (hr : f.rsv = 0)
    (hf : opForm f.op = some (.widthTaking mk)) :
    decodeFields f = .op i ↔ f.cc = 0 ∧ ∃ w, f.w = widthCode w ∧ mk w = i := by
  rw [decodeFields_widthTaking hr hf]
  simp only [← widthOfCode_eq_some]
  by_cases hc : f.cc = 0
  · cases widthOfCode f.w <;> simp [hc]
  · rw [if_pos hc]
    exact ⟨nofun, fun h => absurd h.1 hc⟩

theorem decodeFields_condTaking_eq_op {i : Instr} (hr : f.rsv = 0) (hf : opForm f.op = some .condTaking) :
    decodeFields f = .op i ↔ f.w = 0 ∧ ∃ cc, f.cc = condCode cc ∧ .test cc = i := by
  rw [decodeFields_condTaking hr hf]
  simp only [← condOfCode_eq_some]
  by_cases hw : f.w = 0
  · cases condOfCode f.cc <;> simp [hw]
  · rw [if_pos hw]
    exact ⟨nofun, fun h => absurd h.1 hw⟩

theorem decodeFields_accepts_plain (hr : f.rsv = 0) (ho : f.op.toNat ∈ plainOps) (hw : f.w = 0) (hc : f.cc = 0) :
    ∃ i, decodeFields f = .op i := by
  obtain ⟨i, hf⟩ := opForm_of_mem_plainOps ho
  exact ⟨i, (decodeFields_plain_eq_op hr hf).2 ⟨hw, hc, rfl⟩⟩

theorem decodeFields_accepts_widthTaking (hr : f.rsv = 0) (ho : f.op.toNat ∈ widthOps) (hc : f.cc = 0)
    (hw : f.w.toNat ≠ 3) : ∃ i, decodeFields f = .op i := by
  obtain ⟨mk, hf⟩ := opForm_of_mem_widthOps ho
  obtain ⟨w, hw⟩ := exists_widthCode hw
  exact ⟨mk w, (decodeFields_widthTaking_eq_op hr hf).2 ⟨hc, w, hw, rfl⟩⟩

theorem decodeFields_accepts_condTaking (hr : f.rsv = 0) (ho : f.op.toNat = 0x18) (hw : f.w = 0)
    (hc : ¬30 ≤ f.cc.toNat) : ∃ i, decodeFields f = .op i := by
  obtain ⟨cc, hc⟩ := exists_condCode hc
  exact ⟨.test cc, (decodeFields_condTaking_eq_op hr (opForm_of_eq_test ho)).2 ⟨hw, cc, hc, rfl⟩⟩

/-! ## Decode and encode -/

theorem eq_plainFields (hr : f.rsv = 0) (hc : f.cc = 0) (hw : f.w = 0) : f = plainFields f.op := by
  cases f
  simp_all [plainFields]

theorem eq_widthFields {w : Width} (hr : f.rsv = 0) (hc : f.cc = 0) (hw : f.w = widthCode w) :
    f = widthFields f.op w := by
  cases f
  simp_all [widthFields, plainFields]

theorem eq_testFields {cc : Cond} (hr : f.rsv = 0) (hc : f.cc = condCode cc) (hw : f.w = 0) (ho : f.op = 0x18) :
    f = instrFields (.test cc) := by
  cases f
  simp_all [instrFields, plainFields]

/-- Accepted fields are those the encoder spells the command with: the checks fix every field (30_encoding R60). -/
theorem fields_of_decodeFields {i : Instr} (h : decodeFields f = .op i) : f = instrFields i := by
  by_cases hr : f.rsv = 0
  case neg => simp [decodeFields_of_rsv hr] at h
  have hspec := opForm_spec f.op
  cases hf : opForm f.op with
  | none => simp [decodeFields_of_unassigned hf] at h
  | some form =>
    rw [hf] at hspec
    cases form with
    | plain j =>
      obtain ⟨hw, hc, rfl⟩ := (decodeFields_plain_eq_op hr hf).1 h
      rw [hspec]
      exact eq_plainFields hr hc hw
    | widthTaking mk =>
      obtain ⟨hc, w, hw, rfl⟩ := (decodeFields_widthTaking_eq_op hr hf).1 h
      rw [hspec]
      exact eq_widthFields hr hc hw
    | condTaking =>
      obtain ⟨hw, cc, hc, rfl⟩ := (decodeFields_condTaking_eq_op hr hf).1 h
      exact eq_testFields hr hc hw hspec

end DecodeFields

/-- The family of Laws/PerInstr, for every command. -/
theorem encodeThenDecode (i : Instr) : Laws.EncodeThenDecode.Statement i :=
  match i with
  | .nor => Laws.EncodeThenDecode.nor
  | .not => Laws.EncodeThenDecode.not
  | .or => Laws.EncodeThenDecode.or
  | .and => Laws.EncodeThenDecode.and
  | .xor => Laws.EncodeThenDecode.xor
  | .norb => Laws.EncodeThenDecode.norb
  | .notb => Laws.EncodeThenDecode.notb
  | .orb => Laws.EncodeThenDecode.orb
  | .andb => Laws.EncodeThenDecode.andb
  | .xorb => Laws.EncodeThenDecode.xorb
  | .neg => Laws.EncodeThenDecode.neg
  | .inc => Laws.EncodeThenDecode.inc
  | .dec => Laws.EncodeThenDecode.dec
  | .sel => Laws.EncodeThenDecode.sel
  | .add w => Laws.EncodeThenDecode.add w
  | .sub w => Laws.EncodeThenDecode.sub w
  | .shl w => Laws.EncodeThenDecode.shl w
  | .cmp w => Laws.EncodeThenDecode.cmp w
  | .mul w => Laws.EncodeThenDecode.mul w
  | .test cc => Laws.EncodeThenDecode.test cc
  | .lutrd => Laws.EncodeThenDecode.lutrd
  | .init => Laws.EncodeThenDecode.init

theorem decode_encode (i : Instr) : decode (encode i) = .op i := (encodeThenDecode i).2

theorem instrFields_wellFormed (i : Instr) : (instrFields i).wellFormed = true := (encodeThenDecode i).1

/-- A word accepted as a command is that command's word. -/
theorem encode_of_decode {cmd : CmdWord} {i : Instr} (h : decode cmd = .op i) : encode i = cmd := by
  rw [encode, ← fields_of_decodeFields h, cmdOfFields_cmdFields]

/-- Settles O3: accepted fields are the encoder's, and each command's word decodes to it. -/
theorem decodeAcceptsExactlyTheEncodings : Obligations.DecodeAcceptsExactlyTheEncodings := by
  intro cmd i
  constructor
  · exact fun h => (encode_of_decode h).symm
  · rintro rfl
    exact decode_encode i

/-- Settles O2: each branch of the checks is the decoder's own on that kind of operation; an accepted word is the encoding by
O3's lemma. -/
theorem decodeFollowsTheFieldChecks : Obligations.DecodeFollowsTheFieldChecks := by
  refine ⟨fun cmd => ?_, by decide, by decide, by decide⟩
  have accepted (h : ∃ i, decodeFields (cmdFields cmd) = .op i) :
      ∃ i, decodeFields (cmdFields cmd) = .op i ∧ encode i = cmd := h.imp fun _ hi => ⟨hi, encode_of_decode hi⟩
  rw [← cmdFields_rsv_toNat, ← cmdFields_cc_toNat, ← cmdFields_w_toNat, ← cmdFields_op_toNat, decode]
  generalize cmdFields cmd = f at accepted ⊢
  simp only [bitVec_toNat_eq_zero, ne_eq]
  by_cases hr : f.rsv = 0
  case neg => rw [if_pos hr, decodeFields_of_rsv hr]
  rw [if_neg (not_not.2 hr)]
  split
  next ho =>
    obtain ⟨mk, hf⟩ := opForm_of_mem_widthOps ho
    split_ifs with hc hw
    · rw [decodeFields_widthTaking hr hf, if_neg (not_not.2 hc), widthOfCode_eq_none.2 hw, Option.elim]
    · exact accepted (decodeFields_accepts_widthTaking hr ho hc hw)
    · rw [decodeFields_widthTaking hr hf, if_pos hc]
  next hnw =>
    split
    next ho =>
      have hf := opForm_of_eq_test ho
      split_ifs with hw hc
      · rw [decodeFields_condTaking hr hf, if_neg (not_not.2 hw), condOfCode_eq_none.2 hc, Option.elim]
      · exact accepted (decodeFields_accepts_condTaking hr ho hw hc)
      · rw [decodeFields_condTaking hr hf, if_pos hw]
    next hnt =>
      split
      next ho =>
        obtain ⟨i, hf⟩ := opForm_of_mem_plainOps ho
        split_ifs with hu
        · rw [decodeFields_plain hr hf, if_pos hu]
        · obtain ⟨hw, hc⟩ := not_or.1 hu
          exact accepted (decodeFields_accepts_plain hr ho (not_not.1 hw) (not_not.1 hc))
      next hnp => exact decodeFields_of_unassigned (opForm_of_unassigned hnw hnt hnp)

/-! ## The declarative requirements (30_encoding R57-R61, R66) -/

section WellFormed

variable {f : CmdFields}

theorem takesWidth_iff : f.takesWidth = true ↔ f.op.toNat ∈ widthOps := by
  simp [CmdFields.takesWidth, ← BitVec.toNat_inj, or_assoc]

theorem takesCond_iff : f.takesCond = true ↔ f.op.toNat = 0x18 := by
  simp [CmdFields.takesCond, ← BitVec.toNat_inj]

theorem opAssigned_iff : f.opAssigned = true ↔ f.op.toNat ∈ widthOps ∨ f.op.toNat = 0x18 ∨ f.op.toNat ∈ plainOps := by
  simp only [CmdFields.opAssigned, Bool.or_eq_true, takesWidth_iff, takesCond_iff]
  simp [← BitVec.toNat_inj]
  omega

/-- The six requirements, with the two uses of a field said by op value. -/
theorem wellFormed_iff : f.wellFormed = true ↔
    f.rsv = 0 ∧ (f.op.toNat ∈ widthOps ∨ f.op.toNat = 0x18 ∨ f.op.toNat ∈ plainOps) ∧
      (f.op.toNat ∈ widthOps ∨ f.w = 0) ∧ (f.op.toNat = 0x18 ∨ f.cc = 0) ∧
      (f.op.toNat ∈ widthOps → f.w ≠ 3) ∧ (f.op.toNat = 0x18 → ¬30 ≤ f.cc.toNat) := by
  simp only [CmdFields.wellFormed, CmdFields.rsvZero, CmdFields.widthUsed, CmdFields.condUsed, CmdFields.widthLegal,
    CmdFields.condLegal, Bool.and_eq_true, Bool.or_eq_true, Bool.not_eq_true', Bool.and_eq_false_imp, beq_iff_eq,
    beq_eq_false_iff_ne, decide_eq_false_iff_not, opAssigned_iff, takesWidth_iff, takesCond_iff, and_assoc]

/-- Well-formed fields are accepted, whichever kind of operation they name. -/
theorem decodeFields_of_wellFormed (h : f.wellFormed = true) : ∃ i, decodeFields f = .op i := by
  obtain ⟨hr, ho, hw, hc, hw3, hc30⟩ := wellFormed_iff.1 h
  obtain ho | ho | ho := ho
  · have ht : f.op.toNat ≠ 0x18 := fun e => absurd (e ▸ ho) (by decide)
    exact decodeFields_accepts_widthTaking hr ho (hc.resolve_left ht) fun e => hw3 ho (BitVec.eq_of_toNat_eq e)
  · have hnw : f.op.toNat ∉ widthOps := by simp [ho]
    exact decodeFields_accepts_condTaking hr ho (hw.resolve_left hnw) (hc30 ho)
  · have ht : f.op.toNat ≠ 0x18 := fun e => absurd (e ▸ ho) (by decide)
    have hnw : f.op.toNat ∉ widthOps := notMem_widthOps_of_mem_plainOps _ ho
    exact decodeFields_accepts_plain hr ho (hw.resolve_left hnw) (hc.resolve_left ht)

end WellFormed

/-- Settles O4: well-formed fields are accepted, and an accepted word's fields are an encoding's. -/
theorem fieldRequirementsMatchTheDecoder : Obligations.FieldRequirementsMatchTheDecoder := by
  intro cmd
  constructor
  · exact decodeFields_of_wellFormed
  · rintro ⟨i, h⟩
    rw [fields_of_decodeFields h]
    exact instrFields_wellFormed i

/-- Settles O1: the decoder evaluated on each word. -/
theorem decodesTheSpecsWords : Obligations.DecodesTheSpecsWords := by
  unfold Obligations.DecodesTheSpecsWords
  decide

end Sys2Proof

namespace Sys2Proof.Machine

/-! ## The outputs of a command (30_encoding R63) -/

theorem rejectWord_outputs (c : Cause) (s : State) : ∃ t, rejectWord c s = .next t ∧ t.y = none ∧ t.p = none := by
  by_cases hf : s.faultCause = 0
  · exact ⟨_, rejectWord_running hf c, rfl, rfl⟩
  · exact ⟨_, rejectWord_stopped hf c, rfl, rfl⟩

/-- CMP's Y is the sum of the flags at their bit positions (10_state R26). -/
theorem packFlags_toNat (f : Flags) :
    (packFlags f).toNat = f.cf.toNat + 2 * f.pf.toNat + 4 * f.zf.toNat + 8 * f.sf.toNat + 16 * f.ovf.toNat := by
  obtain ⟨cf, pf, zf, sf, ovf⟩ := f
  revert cf pf zf sf ovf
  decide

section Outputs

variable {i : Instr} {s t : State}

/-- A command that faults drives nothing (60_exceptions R216). -/
theorem exec_outputs_of_fault (hf : s.faultCause = 0) (h : exec i s = .next t) (ht : t.faultCause ≠ 0) :
    t.y = none ∧ t.p = none := by
  cases exec_effect h with
  | fault c => exact ⟨rfl, rfl⟩
  | widthResult w v => exact absurd ((driveWidth_faultCause s w v).trans hf) ht
  | stopped | init | compare | test | word => exact absurd hf ht

theorem execInit_outputs (h : exec .init s = .next t) : t.y = none ∧ t.p = none := by
  by_cases hf : s.faultCause = 0
  · cases (performInit_running hf _).symm.trans h
    exact ⟨rfl, rfl⟩
  · cases (exec_stopped hf .init).symm.trans h
    exact ⟨rfl, rfl⟩

variable (hf : s.faultCause = 0) (ht : t.faultCause = 0)
include hf ht

theorem execTest_outputs {cc : Cond} (h : exec (.test cc) s = .next t) :
    t.p = some (condHolds cc s.flags) ∧ t.y = some (wordOfBit (condHolds cc s.flags)) := by
  cases exec_effect h with
  | stopped hs => exact absurd hf hs
  | fault c => exact absurd ht (causeCode_ne_zero c)
  | test => exact ⟨rfl, rfl⟩
  | word _ _ hn | widthResult _ _ _ hn => exact absurd rfl (hn cc)

theorem execCmp_outputs {w : Width} (h : exec (.cmp w) s = .next t) :
    t.p = none ∧ t.y = some (packFlags t.flags) := by
  cases exec_effect h with
  | stopped hs => exact absurd hf hs
  | fault c => exact absurd ht (causeCode_ne_zero c)
  | compare => exact ⟨rfl, rfl⟩
  | word _ hn | widthResult _ _ hn => exact absurd rfl (hn w)

theorem exec_outputs_of_word (hi : i ≠ .init) (hcc : ∀ cc, i ≠ .test cc) (hw : ∀ w, i ≠ .cmp w)
    (h : exec i s = .next t) : t.p = none ∧ ∃ v, t.y = some v := by
  cases exec_effect h with
  | stopped hs => exact absurd hf hs
  | fault c => exact absurd ht (causeCode_ne_zero c)
  | init => exact absurd rfl hi
  | compare => exact absurd rfl (hw _)
  | test => exact absurd rfl (hcc _)
  | word v => exact ⟨rfl, v, rfl⟩
  | widthResult w v => exact ⟨driveWidth_p s w v, v, driveWidth_y s w v⟩

end Outputs

/-- Settles O21: a rejected word, a fault, and then INIT, TEST, CMP and the rest each by its own lemma. -/
theorem outputsOfEveryCommand : Obligations.OutputsOfEveryCommand := by
  refine ⟨fun s cmd rest c hp hd => ?_, fun i s t hf h => ?_⟩
  · rw [step_rejected hp hd]
    exact rejectWord_outputs c _
  · by_cases ht : t.faultCause = 0
    case neg =>
      rw [if_pos ht]
      exact exec_outputs_of_fault hf h ht
    rw [if_neg (not_not.2 ht)]
    split
    next => exact execInit_outputs h
    next cc => exact ⟨_, execTest_outputs hf ht h⟩
    next w =>
      obtain ⟨hp, hy⟩ := execCmp_outputs hf ht h
      exact ⟨hp, _, hy, packFlags_toNat _⟩
    next hi hcc hw => exact exec_outputs_of_word hf ht hi hcc hw h

/-! ## Ports a command does not read (30_encoding R62) -/

section WithPort

variable {q : Port} {v : Word} {s t : State} {k : State → State}

theorem withPort_port_a (hq : q ≠ .a) : (withPort q v s).port.a = s.port.a := by
  cases q with
  | a => exact absurd rfl hq
  | b | c => rfl

theorem driveNothing_withPort : driveNothing (withPort q v s) = withPort q v (driveNothing s) := by cases q <;> rfl

theorem takeFault_withPort (c : Cause) : takeFault c (withPort q v s) = withPort q v (takeFault c s) := by
  cases q <;> rfl

theorem driveWord_withPort (x : Word) : driveWord x (withPort q v s) = withPort q v (driveWord x s) := by
  cases q <;> rfl

theorem driveBit_withPort (x : Bool) : driveBit x (withPort q v s) = withPort q v (driveBit x s) := by
  cases q <;> rfl

theorem driveWidth_withPort (w : Width) (x : Word) :
    driveWidth w x (withPort q v s) = withPort q v (driveWidth w x s) := by
  cases q <;> cases w <;> rfl

theorem writeTable_withPort : writeTable (withPort q v s) = withPort q v (writeTable s) := by cases q <;> rfl

theorem ite_withPort {c : Prop} [Decidable c] {a b a' b' : State} (ha : a' = withPort q v a)
    (hb : b' = withPort q v b) : (if c then a' else b') = withPort q v (if c then a else b) := by
  rw [ha, hb, apply_ite (withPort q v)]

/-- The common checks read no port, so a command reads one only in its own part. -/
theorem perform_withPort (h : perform s k = .next t) (hk : k (withPort q v s) = withPort q v (k s)) :
    perform (withPort q v s) k = .next (withPort q v t) := by
  obtain ⟨hf, rfl⟩ | ⟨hf, hv, rfl⟩ | ⟨hr, rfl⟩ := perform_cases h
  · rw [perform_stopped (by simpa using hf), driveNothing_withPort]
  · rw [perform_uninit (by simpa using hf) (by simpa using hv), takeFault_withPort]
  · rw [perform_ready (by simpa [State.Ready] using hr), hk]

theorem performInit_withPort (h : performInit s k = .next t) (hk : k (withPort q v s) = withPort q v (k s)) :
    performInit (withPort q v s) k = .next (withPort q v t) := by
  by_cases hf : s.faultCause = 0
  · cases (performInit_running hf k).symm.trans h
    rw [performInit_running (by simpa using hf), hk]
  · cases (performInit_stopped hf k).symm.trans h
    rw [performInit_stopped (by simpa using hf), driveNothing_withPort]

/-- A command runs the same with another word on a port it does not read, and keeps that word. -/
theorem exec_withPort {i : Instr} (hq : readsPort i q = false) (h : exec i s = .next t) :
    exec i (withPort q v s) = .next (withPort q v t) := by
  cases i
  case sel => cases hq
  case init => exact performInit_withPort h (by rw [writeTable_withPort, driveNothing_withPort])
  case test cc =>
    refine perform_withPort h ?_
    rw [withPort_flagsValid, withPort_flags]
    exact ite_withPort (driveBit_withPort _) (takeFault_withPort _)
  case lutrd =>
    refine perform_withPort h ?_
    rw [withPort_port_a (beq_eq_false_iff_ne.1 hq), withPort_lut]
    exact ite_withPort (takeFault_withPort _) (driveWord_withPort _)
  case not | notb | neg | inc | dec =>
    refine perform_withPort h ?_
    rw [withPort_port_a (beq_eq_false_iff_ne.1 hq), driveWord_withPort]
  all_goals obtain rfl := bne_eq_false_iff_eq.1 hq
  case add w | sub w => exact perform_withPort h (driveWidth_withPort ..)
  case shl w => exact perform_withPort h (ite_withPort rfl (driveWidth_withPort ..))
  case mul w => exact perform_withPort h (ite_withPort (driveWidth_withPort ..) (driveWidth_withPort ..))
  all_goals exact perform_withPort h rfl

end WithPort

/-- Settles O22: every command completes, and with another word on a port it does not read it answers the same state but for
that word. -/
theorem ignoredPortsHaveNoEffect : Obligations.IgnoredPortsHaveNoEffect := by
  intro i q v s hq
  obtain ⟨t, ht⟩ := exec_next i s
  exact ⟨t, ht, exec_withPort hq ht⟩

end Sys2Proof.Machine

/-!
The statements of 40_gate_logic: the word commands (O25) and their boolean variants (O26). The units' compositions are the native
operations by Laws/Words; what is added here is the mask to bit 0, and a ready core driving one word.
-/
namespace Sys2Proof.Machine

/-- Every command but INIT makes the common checks (60_exceptions R220). -/
theorem commonChecks_of_ne_init {i : Instr} (hi : i ≠ .init) : CommonChecks i :=
  fun _ => ⟨fun hf => exec_stopped hf i, exec_uninit hi⟩

/-- On a ready core, a command that only drives a word answers it on Y and leaves everything else as it was. -/
theorem perform_driveWord {s : State} {f : State → Word} {v : Word} (hr : s.Ready) (hv : f s = v) :
    perform s (fun s => driveWord (f s) s) = .next { s with y := some v, p := none } := by
  rw [perform_ready hr, hv, driveWord]

/-! ## The word commands (40_gate_logic R81-R85) -/

/-- Settles O25: the gate compositions are the native operations. -/
theorem wordLogicResults : Obligations.WordLogicResults := by
  refine ⟨⟨decode_encode .nor, decode_encode .not, decode_encode .or, decode_encode .and, decode_encode .xor⟩,
    ?checks, fun s hr => ⟨?nor, ?not, ?or, ?and, ?xor⟩⟩
  case checks => and_intros <;> exact commonChecks_of_ne_init nofun
  case nor => exact perform_driveWord hr rfl
  case not => exact perform_driveWord hr (gateNot_eq _)
  case or => exact perform_driveWord hr (gateOr_eq _ _)
  case and => exact perform_driveWord hr (gateAnd_eq _ _)
  case xor => exact perform_driveWord hr (gateXor_eq _ _)

/-! ## The boolean variants (40_gate_logic R90-R95) -/

/-- The mask leaves bit 0, zero-extended (R90). -/
theorem maskBit_eq (v : Word) : maskBit v = if v.getLsbD 0 then 1 else 0 := by
  refine BitVec.and_one_eq_setWidth_ofBool_getLsbD.trans ?_
  cases v.getLsbD 0 <;> rfl

/-- Bit 0 of a complement; the statement writes its `if` with the branches exchanged. -/
theorem maskBit_not (v : Word) : maskBit (~~~v) = if v.getLsbD 0 then 0 else 1 := by
  rw [maskBit_eq, BitVec.getLsbD_not]
  cases v.getLsbD 0 <;> rfl

theorem maskBit_nand32 (a b : Word) : maskBit (nand32 a b) = if a.getLsbD 0 && b.getLsbD 0 then 0 else 1 := by
  rw [nand32, maskBit_not, BitVec.getLsbD_and]

theorem maskBit_gateNot (a : Word) : maskBit (gateNot a) = if a.getLsbD 0 then 0 else 1 := by
  rw [gateNot_eq, maskBit_not]

theorem maskBit_gateOr (a b : Word) : maskBit (gateOr a b) = if a.getLsbD 0 || b.getLsbD 0 then 1 else 0 := by
  rw [gateOr_eq, maskBit_eq, BitVec.getLsbD_or]

theorem maskBit_gateAnd (a b : Word) : maskBit (gateAnd a b) = if a.getLsbD 0 && b.getLsbD 0 then 1 else 0 := by
  rw [gateAnd_eq, maskBit_eq, BitVec.getLsbD_and]

theorem maskBit_gateXor (a b : Word) : maskBit (gateXor a b) = if a.getLsbD 0 ^^ b.getLsbD 0 then 1 else 0 := by
  rw [gateXor_eq, maskBit_eq, BitVec.getLsbD_xor]

/-- Settles O26: bit 0 of each native operation is the operation on bits 0 of the operands. -/
theorem booleanLogicResults : Obligations.BooleanLogicResults := by
  refine ⟨⟨decode_encode .norb, decode_encode .notb, decode_encode .orb, decode_encode .andb, decode_encode .xorb⟩,
    ?checks, fun s hr => ⟨?norb, ?notb, ?orb, ?andb, ?xorb⟩⟩
  case checks => and_intros <;> exact commonChecks_of_ne_init nofun
  case norb => exact perform_driveWord hr (maskBit_nand32 _ _)
  case notb => exact perform_driveWord hr (maskBit_gateNot _)
  case orb => exact perform_driveWord hr (maskBit_gateOr _ _)
  case andb => exact perform_driveWord hr (maskBit_gateAnd _ _)
  case xorb => exact perform_driveWord hr (maskBit_gateXor _ _)

end Sys2Proof.Machine

/-!
The statements of 41_bitpos_lut: INIT (O27) and LUTRD (O29). What is added here is LUTRD on a ready core, on either side of its
index bound.
-/
namespace Sys2Proof.Machine

/-! ## INIT (41_bitpos_lut R100, R102) -/

/-- Settles O27: the table written is `powerTable`, and of the state checks INIT makes only the stop. -/
theorem initWritesThePowersOfTwo : Obligations.InitWritesThePowersOfTwo :=
  ⟨decode_encode .init, fun _ => ⟨fun hf => exec_stopped hf .init,
    fun hf => ⟨powerTable, powerTable_get, performInit_running hf _⟩⟩⟩

/-! ## LUTRD (41_bitpos_lut R103) -/

/-- The read port's own bounds check is void up to index 31 (41_bitpos_lut R101). -/
theorem bitPos_of_lt (lut : Vector Word 32) {i : Nat} (hi : i < 32) : bitPos lut i = lut[i] := dif_pos hi

section Lutrd

variable {s : State} (hr : s.Ready)
include hr

theorem execLutrd_of_index_gt (ha : 31 < s.port.a.toNat) : exec .lutrd s = .next (takeFault .lutIndex s) :=
  (perform_ready hr _).trans (congrArg _ (if_pos ha))

theorem execLutrd_of_index_lt (ha : s.port.a.toNat < 32) :
    exec .lutrd s = .next (driveWord s.lut[s.port.a.toNat] s) := by
  have hn : ¬31 < s.port.a.toNat := by omega
  rw [← bitPos_of_lt s.lut ha]
  exact (perform_ready hr _).trans (congrArg _ (if_neg hn))

end Lutrd

/-- Settles O29: below 32 the entry is driven, and the invariant's table says which word it is; above, the fault. -/
theorem lutrdReadsTheEntry : Obligations.LutrdReadsTheEntry := by
  refine ⟨decode_encode .lutrd, commonChecks_of_ne_init nofun, fun s hr =>
    ⟨execLutrd_of_index_lt hr, fun hi ha => ?_, execLutrd_of_index_gt hr⟩⟩
  have hlt : s.port.a.toNat < 32 := by omega
  have hentry : s.lut[s.port.a.toNat] = BitVec.ofNat 32 (2 ^ s.port.a.toNat) :=
    hi.table hr.2 ⟨s.port.a.toNat, hlt⟩
  rw [execLutrd_of_index_lt hr hlt, hentry, driveWord]

end Sys2Proof.Machine

/-!
The statement of 42_select: SEL (O31). Laws/Words says what `selectIf`'s mask and gates compute.
-/
namespace Sys2Proof.Machine

/-- The statement's reading of R111, true value first: `selectIf_eq` with its branches exchanged. -/
theorem selectIf_eq_ite_ne (t f c : Word) : selectIf t f c = if c ≠ 0 then t else f :=
  (selectIf_eq t f c).trans (ite_not (c = 0) t f).symm

/-- Settles O31: SEL only drives a word, and the mask of R110 makes that word A or B. -/
theorem selChoosesByTheCondition : Obligations.SelChoosesByTheCondition :=
  ⟨decode_encode .sel, commonChecks_of_ne_init nofun, fun _ hr => perform_driveWord hr (selectIf_eq_ite_ne _ _ _)⟩

end Sys2Proof.Machine

/-!
The statements of 43_arith: NEG, INC and DEC (O32), ADD (O33) and SUB (O34). Laws/Words and Laws/Adder say what the units compute;
what is added here is a ready core driving the adder's result, and the difference read in the integers.
-/
namespace Sys2Proof.Machine

/-! ## Negate, increment, decrement (43_arith R121-R123) -/

/-- Settles O32: the mutual bootstrap of the three units gives the native operations. -/
theorem negIncDecResults : Obligations.NegIncDecResults := by
  refine ⟨⟨decode_encode .neg, decode_encode .inc, decode_encode .dec⟩, ?checks, fun s hr => ⟨?neg, ?inc, ?dec⟩⟩
  case checks => and_intros <;> exact commonChecks_of_ne_init nofun
  case neg => exact perform_driveWord hr (neg32_eq _)
  case inc => exact perform_driveWord hr (inc32_eq _)
  case dec => exact perform_driveWord hr (dec32_eq _)

/-! ## Addition and subtraction (43_arith R125-R127) -/

/-- Past the common checks the invariant makes the table the one INIT writes (10_state R23). -/
theorem State.Ready.lut_eq {s : State} (hr : s.Ready) (hi : s.Inv) : s.lut = powerTable := (hi.table hr.2).lut_eq

/-- On a ready core, a command that only drives a width-`w` result answers it on Y and leaves everything else as it was, but for
the draw counter. -/
theorem perform_driveWidth {s : State} {f : State → Word} {v : Word} (w : Width) (hr : s.Ready) (hv : f s = v) :
    ∃ n, perform s (fun s => driveWidth w (f s) s) = .next { s with y := some v, p := none, draws := n } := by
  obtain ⟨n, hn⟩ := driveWidth_eq w v s
  exact ⟨n, by rw [perform_ready hr, hv, hn]⟩

section AddSub

variable {s : State} (hr : s.Ready) (hi : s.Inv)
include hr hi

theorem execAdd_ready (w : Width) : ∃ n, exec (.add w) s = .next { s with
    y := some (addW powerTable (drawUpper .add w s) s.port.a s.port.b w), p := none, draws := n } :=
  perform_driveWidth w hr (by rw [hr.lut_eq hi])

theorem execSub_ready (w : Width) : ∃ n, exec (.sub w) s = .next { s with
    y := some (addW powerTable (drawUpper .sub w s) s.port.a (neg32 s.port.b) w), p := none, draws := n } :=
  perform_driveWidth w hr (by rw [hr.lut_eq hi])

end AddSub

/-- Adding the negated operand is subtraction in the low `w` bits, read in the integers (43_arith R127). -/
theorem subW_modEq (up a b : Word) (w : Width) :
    ((addW powerTable up a (neg32 b) w).toNat : Int) ≡ a.toNat - b.toNat [ZMOD (2 ^ widthBits w : Nat)] := by
  have hadd : (addW powerTable up a (-b) w).toNat ≡ a.toNat + (-b).toNat [MOD 2 ^ widthBits w] := addW_mod up a (-b) w
  calc ((addW powerTable up a (neg32 b) w).toNat : Int)
      ≡ a.toNat + (-b).toNat [ZMOD (2 ^ widthBits w : Nat)] := by
        rw [neg32_eq]
        exact_mod_cast Int.natCast_modEq_iff.2 hadd
    _ ≡ a.toNat + -b.toNat [ZMOD (2 ^ widthBits w : Nat)] := (toNat_neg_modEq b w).add_left _

/-- Settles O33: the ripple-carry adder over the invariant's table is addition modulo `2^w`, whatever is drawn above. -/
theorem addIsAdditionModuloTheWidth : Obligations.AddIsAdditionModuloTheWidth := by
  refine ⟨⟨decode_encode (.add .w8), decode_encode (.add .w16), decode_encode (.add .w32), rfl⟩,
    fun w => ⟨commonChecks_of_ne_init nofun, fun s hr hi => ?_⟩⟩
  obtain ⟨n, hn⟩ := execAdd_ready hr hi w
  refine ⟨_, n, hn, addW_mod _ _ _ w, fun hw => ?_⟩
  subst hw
  exact addW_w32 _ _ _

/-- Settles O34: the same adder, fed the negated second operand. -/
theorem subIsSubtractionModuloTheWidth : Obligations.SubIsSubtractionModuloTheWidth := by
  refine ⟨⟨decode_encode (.sub .w8), decode_encode (.sub .w16), decode_encode (.sub .w32), rfl⟩,
    fun w => ⟨commonChecks_of_ne_init nofun, fun s hr hi => ?_⟩⟩
  obtain ⟨n, hn⟩ := execSub_ready hr hi w
  refine ⟨_, n, hn, ?_, fun hw => ?_⟩
  · exact_mod_cast subW_modEq (drawUpper .sub w s) s.port.a s.port.b w
  · subst hw
    exact subW_w32 _ _ _

end Sys2Proof.Machine

/-!
The statement of 44_shift: SHL (O35). Laws/Shifter says what the shift loop computes; what is added here is SHL on a ready core, on
either side of the amount's sign.
-/
namespace Sys2Proof.Machine

section Shl

variable {s : State} (hr : s.Ready)
include hr

theorem execShl_of_negative (w : Width) (hb : s.port.b.toInt < 0) :
    exec (.shl w) s = .next (takeFault .shiftRange s) :=
  (perform_ready hr _).trans (congrArg _ (if_pos hb))

theorem execShl_of_nonneg (hi : s.Inv) (w : Width) (hb : 0 ≤ s.port.b.toInt) : ∃ n, exec (.shl w) s = .next { s with
    y := some (shlW powerTable (drawUpper .shl w s) s.port.a s.port.b.toNat w), p := none, draws := n } := by
  have hamount : s.port.b.toInt.toNat = s.port.b.toNat := BitVec.toNat_toInt_of_sle (BitVec.sle_iff_toInt_le.2 hb)
  obtain ⟨n, hn⟩ := driveWidth_eq w (shlW powerTable (drawUpper .shl w s) s.port.a s.port.b.toNat w) s
  refine ⟨n, ?_⟩
  rw [← hn, ← hamount, ← hr.lut_eq hi]
  exact (perform_ready hr _).trans (congrArg _ (if_neg (Int.not_lt.2 hb)))

end Shl

/-- Settles O35: a negative amount faults; for any other the shifter over the invariant's table multiplies by a power of two
modulo `2^w`, whatever is drawn above. -/
theorem shlShiftsByTheAmountModuloTheWidth : Obligations.ShlShiftsByTheAmountModuloTheWidth := by
  refine ⟨⟨decode_encode (.shl .w8), decode_encode (.shl .w16), decode_encode (.shl .w32), rfl⟩,
    fun w => ⟨commonChecks_of_ne_init nofun, fun s hr hi => ⟨execShl_of_negative hr w, fun hb => ?_⟩⟩⟩
  obtain ⟨n, hn⟩ := execShl_of_nonneg hr hi w hb
  refine ⟨_, n, hn, shlW_mod _ _ _ w, fun hw => ?_⟩
  subst hw
  exact shlW_w32 _ _ _

end Sys2Proof.Machine

/-!
The statements of 45_flags_predicates about CMP (O37, O40) and TEST (O44, O41). Laws/Scan says what each flag holds after the
scan; what is added here is CMP and TEST on a ready core, CF read as the highest differing bit, and what part of its operands the
scan reads.
-/
namespace Sys2Proof.Machine

/-! ## CMP (45_flags_predicates R159) -/

/-- CMP on a ready core: the record `f` its scan gives goes to FLAGS and, packed, to Y. -/
theorem execCmp_ready {s : State} {w : Width} {f : Flags} (hr : s.Ready)
    (hf : compareW s.pfRule s.lut s.port.a s.port.b w = f) :
    exec (.cmp w) s = .next (driveWord (packFlags f) (writeFlags f s)) := by
  subst hf
  exact perform_ready hr _

/-- The unsigned order of the low `n` bits is decided at the highest bit where the words differ (R153). -/
theorem mod_two_pow_lt_iff (a b : Word) (n : Nat) : a.toNat % 2 ^ n < b.toNat % 2 ^ n ↔
    ∃ i < n, b.getLsbD i = true ∧ a.getLsbD i = false ∧ ∀ j < n, i < j → a.getLsbD j = b.getLsbD j := by
  induction n with
  | zero => simp [Nat.mod_one]
  | succ n ih =>
    rw [mod_succ_lt_iff, ih]
    constructor
    · rintro (⟨ha, hb⟩ | ⟨htop, i, hi, hb, ha, hij⟩)
      · exact ⟨n, n.lt_succ_self, hb, ha, fun j hj hnj => by omega⟩
      · refine ⟨i, by omega, hb, ha, fun j hj h => ?_⟩
        obtain hjn | rfl := Nat.lt_succ_iff_lt_or_eq.1 hj
        · exact hij j hjn h
        · exact htop
    · rintro ⟨i, hi, hb, ha, hij⟩
      obtain hin | rfl := Nat.lt_succ_iff_lt_or_eq.1 hi
      · exact .inr ⟨hij n n.lt_succ_self hin, i, hin, hb, ha, fun j hj => hij j (by omega)⟩
      · exact .inl ⟨ha, hb⟩

section Compare

variable (rule : PfRule) (a b : Word) (w : Width)

/-- CF in the words of R153. -/
theorem compareW_cf_iff : (compareW rule powerTable a b w).cf = true ↔
    ∃ i < widthBits w, b.getLsbD i = true ∧ a.getLsbD i = false ∧
      ∀ j < widthBits w, i < j → a.getLsbD j = b.getLsbD j := by
  rw [compareW_cf, decide_eq_true_iff, mod_two_pow_lt_iff]

/-- ZF in the words of R155. -/
theorem compareW_zf_iff : (compareW rule powerTable a b w).zf = true ↔
    ∀ i < widthBits w, (a - b).getLsbD i = false := by
  rw [compareW_zf, decide_eq_true_iff]
  simpa using mod_two_pow_eq_iff (a - b) 0 (widthBits w)

/-- OF in the words of R157. -/
theorem compareW_ovf_iff : (compareW rule powerTable a b w).ovf = true ↔
    (a.getLsbD (widthBits w - 1) = false ∧ b.getLsbD (widthBits w - 1) = true ∧
        (compareW rule powerTable a b w).sf = true) ∨
      (a.getLsbD (widthBits w - 1) = true ∧ b.getLsbD (widthBits w - 1) = false ∧
        (compareW rule powerTable a b w).sf = false) := by
  rw [compareW_ovf, compareW_sf]
  cases a.getLsbD (widthBits w - 1) <;> simp

end Compare

/-- Settles O37: the record is the scan's over the invariant's table, each flag in its own rule's words. -/
theorem cmpSetsTheFlags : Obligations.CmpSetsTheFlags := by
  refine ⟨⟨decode_encode (.cmp .w8), decode_encode (.cmp .w16), decode_encode (.cmp .w32), rfl⟩,
    fun w => ⟨commonChecks_of_ne_init nofun, fun s hr hi => ?_⟩⟩
  have hscan : compareW s.pfRule s.lut s.port.a s.port.b w = compareW s.pfRule powerTable s.port.a s.port.b w := by
    rw [hr.lut_eq hi]
  refine ⟨_, _, execCmp_ready hr hscan, packFlags_toNat _, compareW_cf_iff _ _ _ w, compareW_sf _ _ _ w,
    compareW_zf_iff _ _ _ w, compareW_ovf_iff _ _ _ w, fun hrule => ?_⟩
  rw [hrule]
  exact compareW_pf_default _ _ w

/-! ## What CMP reads of its operands (45_flags_predicates R150, R151) -/

/-- Words that agree modulo `2^w` have negations that do. -/
theorem neg32_mod_congr {w : Width} {x y : Word} (h : x.toNat % 2 ^ widthBits w = y.toNat % 2 ^ widthBits w) :
    (neg32 x).toNat % 2 ^ widthBits w = (neg32 y).toNat % 2 ^ widthBits w := by
  have hxy : (x.toNat : Int) ≡ y.toNat [ZMOD (2 ^ widthBits w : Nat)] := Int.natCast_modEq_iff.2 h
  rw [neg32_eq, neg32_eq]
  exact Int.natCast_modEq_iff.1 ((toNat_neg_modEq x w).trans (hxy.neg.trans (toNat_neg_modEq y w).symm))

/-- After `n` bits the scan has read only the bits below `n` of its three words. -/
theorem scanLoop_congr (rule : PfRule) {a b nb a' b' nb' : Word} : ∀ n ≤ 32,
    (∀ i < n, a.getLsbD i = a'.getLsbD i) → (∀ i < n, b.getLsbD i = b'.getLsbD i) →
    (∀ i < n, nb.getLsbD i = nb'.getLsbD i) →
    scanLoop rule powerTable a b nb n = scanLoop rule powerTable a' b' nb' n
  | 0, _, _, _, _ => rfl
  | n + 1, hn, ha, hb, hnb => by
    have ih := scanLoop_congr rule n (by omega) (fun i hi => ha i (by omega)) (fun i hi => hb i (by omega))
      fun i hi => hnb i (by omega)
    simp only [scanLoop, bitSet_powerTable _ hn, ih, ha n n.lt_succ_self, hb n n.lt_succ_self, hnb n n.lt_succ_self]

/-- Under every parity rule the comparison depends only on the low `w` bits of its operands. -/
theorem compareW_congr (rule : PfRule) {a b a' b' : Word} {w : Width}
    (ha : a.toNat % 2 ^ widthBits w = a'.toNat % 2 ^ widthBits w)
    (hb : b.toNat % 2 ^ widthBits w = b'.toNat % 2 ^ widthBits w) :
    compareW rule powerTable a b w = compareW rule powerTable a' b' w := by
  have hscan : scanLoop rule powerTable a b (neg32 b) (widthBits w) =
      scanLoop rule powerTable a' b' (neg32 b') (widthBits w) :=
    scanLoop_congr rule _ (widthBits_le w) ((mod_two_pow_eq_iff _ _ _).1 ha) ((mod_two_pow_eq_iff _ _ _).1 hb)
      ((mod_two_pow_eq_iff _ _ _).1 (neg32_mod_congr hb))
  rw [compareW, compareW, hscan]
  cases rule
  case free => simp only [pfEnd, lowBits_eq_of_mod_eq ha, lowBits_eq_of_mod_eq hb]
  all_goals rfl

/-- Settles O40: the two executions compare operands that agree on the low `w` bits. -/
theorem cmpIgnoresBitsAboveTheWidth : Obligations.CmpIgnoresBitsAboveTheWidth := by
  intro w a b s hr hi ha hb
  have hr' : (withPort .a a (withPort .b b s)).Ready := hr
  have hflags : compareW s.pfRule s.lut a b w = compareW s.pfRule s.lut s.port.a s.port.b w := by
    rw [hr.lut_eq hi]
    exact (compareW_congr s.pfRule ha hb).symm
  exact ⟨_, _, execCmp_ready hr rfl, execCmp_ready hr' hflags, rfl, rfl⟩

/-! ## TEST (45_flags_predicates R160) -/

/-- The word of TEST holds its cc value above the operation (30_encoding R56, R57). -/
theorem encode_test (cc : Cond) : encode (.test cc) = 0x0018 ||| (condCode cc).zeroExtend 16 <<< 8 := by
  rw [BitVec.or_comm]
  simp [encode, instrFields, plainFields, cmdOfFields]

/-- TEST on a ready core, once a CMP has written FLAGS. -/
theorem execTest_compared {s : State} (hr : s.Ready) (hv : s.flagsValid = true) (cc : Cond) :
    exec (.test cc) s = .next (driveBit (condHolds cc s.flags) s) :=
  (perform_ready hr _).trans (congrArg _ (if_pos hv))

/-- Settles O44: FLAGS_VALID alone decides between the fault and the predicate. -/
theorem testDrivesThePredicate : Obligations.TestDrivesThePredicate := by
  refine ⟨fun cc => ?word, ⟨rfl, rfl⟩, fun cc => ⟨commonChecks_of_ne_init nofun, fun s hr =>
    ⟨fun hv => execTest_undefined hr hv cc, fun hv => ⟨_, rfl, execTest_compared hr hv cc⟩⟩⟩⟩
  case word =>
    rw [← encode_test]
    exact decode_encode (.test cc)

/-- Settles O41: each command drives its own predicate of FLAGS. -/
theorem predicatesTheSourceGives : Obligations.PredicatesTheSourceGives := by
  refine ⟨⟨decode_encode (.test .o), decode_encode (.test .c), decode_encode (.test .e), decode_encode (.test .ne),
    decode_encode (.test .a), decode_encode (.test .s), decode_encode (.test .p), decode_encode (.test .ge),
    decode_encode (.test .g)⟩, fun s hr hv => ?_⟩
  and_intros <;> exact execTest_compared hr hv _

end Sys2Proof.Machine

/-!
The statement of 46_multiply: MUL (O48). Laws/Multiplier says what the loop computes; what is added here is MUL on a ready core, on
either side of its domain, and the domain in the words of the signed operands.
-/
namespace Sys2Proof.Machine

/-- A magnitude, read unsigned, is the absolute value of the signed operand, INT32_MIN included (46_multiply R200). -/
theorem toNat_magnitude (a : Word) : (magnitude a).toNat = a.toInt.natAbs := by
  have habs : magnitude a = a.abs := magnitude_eq a
  have hlt := a.isLt
  rw [habs, BitVec.toNat_abs, BitVec.toInt_eq_msb_cond]
  cases a.msb
  · rfl
  · simp only [if_true]
    omega

/-- The domain of MUL in the signed operands (46_multiply R202). -/
theorem mulInDomain_iff_natAbs (a b : Word) (w : Width) :
    mulInDomain a b w = true ↔ a.toInt.natAbs < 2 ^ widthBits w ∧ b.toInt.natAbs < 2 ^ widthBits w := by
  rw [mulInDomain_iff, toNat_magnitude, toNat_magnitude]

/-- Cutting a product to 32 bits keeps it modulo `2^w`. -/
theorem toNat_mul_mod_widthBits (a b : Word) (w : Width) :
    (a * b).toNat % 2 ^ widthBits w = a.toNat * b.toNat % 2 ^ widthBits w := by
  rw [BitVec.toNat_mul]
  exact Nat.mod_mod_of_dvd _ (pow_dvd_pow 2 (widthBits_le w))

/-- On a ready core, a command whose effect on this state is to drive a width-`w` result answers it on Y and leaves everything else
as it was, but for the draw counter. -/
theorem perform_eq_driveWidth {s : State} {k : State → State} {w : Width} {v : Word} (hr : s.Ready)
    (hk : k s = driveWidth w v s) : ∃ n, perform s k = .next { s with y := some v, p := none, draws := n } := by
  obtain ⟨n, hn⟩ := driveWidth_eq w v s
  exact ⟨n, by rw [perform_ready hr, hk, hn]⟩

section Mul

variable {s : State} {w : Width} (hr : s.Ready)
include hr

theorem execMul_of_inDomain (hi : s.Inv) (hd : mulInDomain s.port.a s.port.b w = true) :
    ∃ n, exec (.mul w) s = .next { s with
      y := some (splice w (mulW powerTable (drawUpper .mul w s) s.port.a s.port.b w) (drawUpper .mul w s)),
      p := none, draws := n } := by
  rw [← hr.lut_eq hi]
  exact perform_eq_driveWidth hr (if_pos hd)

theorem execMul_of_not_inDomain (hd : ¬mulInDomain s.port.a s.port.b w = true) :
    ∃ n, exec (.mul w) s = .next { s with y := some (drawMul w s), p := none, draws := n } :=
  perform_eq_driveWidth hr (if_neg hd)

end Mul

/-- Settles O48: inside the domain the multiplier over the invariant's table is multiplication modulo `2^w`, whatever is drawn
above; outside it MULDRAW is driven, and at width 32 nothing is outside. -/
theorem mulIsMultiplicationModuloTheWidth : Obligations.MulIsMultiplicationModuloTheWidth := by
  refine ⟨⟨decode_encode (.mul .w8), decode_encode (.mul .w16), decode_encode (.mul .w32), rfl⟩,
    fun w => ⟨commonChecks_of_ne_init nofun, fun s hr hi => ?_⟩⟩
  by_cases hd : mulInDomain s.port.a s.port.b w = true
  case pos =>
    obtain ⟨n, hn⟩ := execMul_of_inDomain hr hi hd
    refine ⟨_, n, hn, fun _ _ => ?_, fun hw => ?_⟩
    · rw [splice_mod, mulW_mod _ _ _ w hd, toNat_mul_mod_widthBits]
    · subst hw
      exact mulW_w32 _ _ _
  case neg =>
    obtain ⟨n, hn⟩ := execMul_of_not_inDomain hr hd
    refine ⟨_, n, hn, fun ha hb => absurd ((mulInDomain_iff_natAbs _ _ w).2 ⟨ha, hb⟩) hd, fun hw => ?_⟩
    subst hw
    exact absurd rfl hd

end Sys2Proof.Machine

/-!
The statements of 60_exceptions: the causes a command records (O7, O15, O16, O17, O18), the idle core (O8), and the stop after a
fault over a run (O13). What is added here is the step of a running core on a rejected word, the step of a stopped core, and
that the stopped core's steps compose.
-/
namespace Sys2Proof.Machine

section Steps

variable {s : State} {cmd : Command} {rest : List HostInput}

/-- A rejected word on a running core: the command is presented, then its fault is taken (60_exceptions R216). -/
theorem step_rejected_running {c : Cause} (hp : s.pending = .command cmd :: rest) (hf : s.faultCause = 0)
    (hd : decode cmd.word = .fault c) : step s = .next (takeFault c (present cmd rest s)) :=
  (step_rejected hp hd).trans (rejectWord_running (s := present cmd rest s) hf c)

/-- A command on a stopped core, whatever its word: it is presented and not performed (60_exceptions R219). -/
theorem step_command_stopped (hp : s.pending = .command cmd :: rest) (hf : s.faultCause ≠ 0) :
    step s = .next (driveNothing (present cmd rest s)) := by
  cases hd : decode cmd.word with
  | op i => exact (step_command hp hd).trans (exec_stopped (s := present cmd rest s) hf i)
  | fault c => exact (step_rejected hp hd).trans (rejectWord_stopped (s := present cmd rest s) hf c)

end Steps

/-! ## A stopped core over a run (60_exceptions R219) -/

/-- The two states hold the same in each of the five architectural elements (10_state R22). -/
structure SameElements (s t : State) : Prop where
  lut : t.lut = s.lut
  lutValid : t.lutValid = s.lutValid
  flags : t.flags = s.flags
  flagsValid : t.flagsValid = s.flagsValid
  faultCause : t.faultCause = s.faultCause

section Stopped

variable {s t u : State}

theorem SameElements.refl (s : State) : SameElements s s := ⟨rfl, rfl, rfl, rfl, rfl⟩

theorem SameElements.trans (hst : SameElements s t) (htu : SameElements t u) : SameElements s u where
  lut := htu.lut.trans hst.lut
  lutValid := htu.lutValid.trans hst.lutValid
  flags := htu.flags.trans hst.flags
  flagsValid := htu.flagsValid.trans hst.flagsValid
  faultCause := htu.faultCause.trans hst.faultCause

/-- A step that ends stopped adds nothing to the observation, whatever it took (entry 20). -/
theorem observedBy_of_stopped (s : State) (ht : t.faultCause ≠ 0) : observedBy s t = [] := by
  unfold observedBy
  split
  · exact if_pos (stopped_eq_true.2 ht)
  · rfl
  · rfl

/-- Every input but a reset leaves the elements of a stopped core as they were. -/
theorem step_keeps_elements_of_stopped (hf : s.faultCause ≠ 0) (hr : .reset ∉ s.pending) :
    ∃ t, step s = .next t ∧ SameElements s t ∧ .reset ∉ t.pending := by
  cases hp : s.pending with
  | nil => exact ⟨s, step_idle hp, .refl s, hr⟩
  | cons x rest =>
    rw [hp, List.mem_cons, not_or] at hr
    obtain ⟨hx, hrest⟩ := hr
    cases x with
    | reset => exact absurd rfl hx
    | command cmd => exact ⟨_, step_command_stopped hp hf, ⟨rfl, rfl, rfl, rfl, rfl⟩, hrest⟩

/-- A run from a stopped core observes nothing and leaves its elements as they were, as long as no reset is presented. -/
theorem observe_of_stopped (n : Nat) (hf : s.faultCause ≠ 0) (hr : .reset ∉ s.pending) :
    ∃ t, observe n s = ([], t) ∧ SameElements s t := by
  induction n generalizing s with
  | zero => exact ⟨s, rfl, .refl s⟩
  | succ n ih =>
    obtain ⟨t, ht, hst, hrt⟩ := step_keeps_elements_of_stopped hf hr
    have hft : t.faultCause ≠ 0 := hst.faultCause ▸ hf
    obtain ⟨u, hu, htu⟩ := ih hft hrt
    exact ⟨u, by rw [observe_succ ht, hu, observedBy_of_stopped s hft, List.append_nil], hst.trans htu⟩

end Stopped

/-- Settles O13: the run keeps the five elements, FAULT_CAUSE among them, so its end is as stopped as its start. -/
theorem faultIsStickyOverARun : Obligations.FaultIsStickyOverARun := by
  intro n s hf hr
  obtain ⟨t, hobs, hst⟩ := observe_of_stopped n hf hr
  have hbad : ¬t.EndsWell := by rwa [State.EndsWell, hst.faultCause]
  exact ⟨t, hobs, hst.faultCause, hst.lut, hst.lutValid, hst.flags, hst.flagsValid, hbad⟩

/-! ## The causes (60_exceptions R211-R218) -/

/-- Settles O15: the common check of every command but INIT. -/
theorem everyCommandButInitNeedsTheTable : Obligations.EveryCommandButInitNeedsTheTable :=
  fun _ _ hi hf hv => exec_uninit hi hf hv

/-- Settles O7: the fault taken is the decoder's cause, whose code the statement writes out. -/
theorem rejectedWordTakesItsFault : Obligations.RejectedWordTakesItsFault :=
  fun _ _ _ hp hf => ⟨step_rejected_running hp hf, step_rejected_running hp hf, step_rejected_running hp hf⟩

/-- Settles O8: the idle case of the step. -/
theorem idleCoreHoldsItsState : Obligations.IdleCoreHoldsItsState := fun _ hp => step_idle hp

/-- Settles O16: TEST's own check, before any CMP. -/
theorem testNeedsACompare : Obligations.TestNeedsACompare := fun cc _ hr hv => execTest_undefined hr hv cc

/-- Settles O17: LUTRD's own check, above the index bound. -/
theorem lutrdIndexAbove31Faults : Obligations.LutrdIndexAbove31Faults := fun _ hr ha => execLutrd_of_index_gt hr ha

/-- Settles O18: SHL's own check, at every width. -/
theorem negativeShiftAmountFaults : Obligations.NegativeShiftAmountFaults :=
  fun w _ hr hb => execShl_of_negative hr w hb

end Sys2Proof.Machine

/-!
The statements about every command and every step: which elements a command writes (O20), the reset (O5, O10), the inputs a run
takes (O9), the fault and the stop after it (O14, O12), the order of the checks (O19), and FLAGS over a run without a CMP (O47).
What is added here is the frame of a command, read off `CommandEffect`, and what a step takes from the host's list.
-/
namespace Sys2Proof.Machine

/-! ## What every command leaves as it was (10_state R34) -/

section Frame

variable {i : Instr} {s t : State}

/-- What the host drives and the parameter PF_RULE are no state of the core. -/
theorem exec_keeps_host_side (h : exec i s = .next t) :
    t.port = s.port ∧ t.pending = s.pending ∧ t.pfRule = s.pfRule := by
  cases exec_effect h with
  | widthResult w v => exact ⟨driveWidth_port s w v, driveWidth_pending s w v, driveWidth_pfRule s w v⟩
  | stopped | fault | init | compare | test | word => exact ⟨rfl, rfl, rfl⟩

/-- Only INIT writes the table and LUT_VALID. -/
theorem exec_keeps_table (hi : i ≠ .init) (h : exec i s = .next t) : t.lut = s.lut ∧ t.lutValid = s.lutValid := by
  cases exec_effect h with
  | init => exact absurd rfl hi
  | widthResult w v => exact ⟨driveWidth_lut s w v, driveWidth_lutValid s w v⟩
  | stopped | fault | compare | test | word => exact ⟨rfl, rfl⟩

/-- Only CMP writes FLAGS. -/
theorem exec_keeps_flags (hc : ∀ w, i ≠ .cmp w) (h : exec i s = .next t) : t.flags = s.flags := by
  cases exec_effect h with
  | compare => exact absurd rfl (hc _)
  | widthResult w v => exact driveWidth_flags s w v
  | stopped | fault | init | test | word => rfl

theorem exec_keeps_faultCause_of_stopped (hf : s.faultCause ≠ 0) (h : exec i s = .next t) :
    t.faultCause = s.faultCause := by
  cases (exec_stopped hf i).symm.trans h
  rfl

/-- The way a running core comes to a fault is the fault entry (60_exceptions R216). -/
theorem exec_faulting (hf : s.faultCause = 0) (h : exec i s = .next t) (ht : t.faultCause ≠ 0) :
    ∃ c, t = takeFault c s := by
  cases exec_effect h with
  | fault c => exact ⟨c, rfl⟩
  | widthResult w v => exact absurd ((driveWidth_faultCause s w v).trans hf) ht
  | stopped | init | compare | test | word => exact absurd hf ht

/-- Everything a rejected word can do. -/
theorem rejectWord_cases {c : Cause} (h : rejectWord c s = .next t) : t = takeFault c s ∨ t = driveNothing s := by
  by_cases hf : s.faultCause = 0
  · cases (rejectWord_running hf c).symm.trans h
    exact .inl rfl
  · cases (rejectWord_stopped hf c).symm.trans h
    exact .inr rfl

end Frame

/-- Settles O20: one frame lemma for each element. -/
theorem commandsWriteOnlyTheirElements : Obligations.CommandsWriteOnlyTheirElements := by
  intro i s t h
  obtain ⟨hport, hpending, hrule⟩ := exec_keeps_host_side h
  refine ⟨hport, hpending, hrule, fun hi => exec_keeps_table hi h, fun hc => ?_,
    fun hf => exec_keeps_faultCause_of_stopped hf h⟩
  have hne : ∀ w, i ≠ .cmp w := fun w e => hc (e ▸ rfl)
  exact ⟨exec_keeps_flags hne h, exec_keeps_flagsValid hne h⟩

/-! ## Reset (70_reset R230) -/

/-- Settles O10: at reset nothing is valid, nothing is recorded and nothing is driven. -/
theorem resetMeetsTheInvariant : Obligations.ResetMeetsTheInvariant where
  table := nofun
  flagsAfterInit := nofun
  faultSilent := absurd rfl
  pOnY := nofun

/-- Settles O5: the fields of the reset state, and of the state the reset event answers. -/
theorem resetClearsTheCore : Obligations.ResetClearsTheCore := by
  refine ⟨⟨rfl, rfl, rfl, rfl, rfl⟩, fun s rest hp => ⟨resetEvent rest s, step_reset hp, ?_⟩⟩
  simp

/-! ## The inputs a run takes (20_memory R45) -/

/-- Each step takes the host's next input, if there is one. -/
theorem step_takes_input {s t : State} (h : step s = .next t) : t.pending = s.pending.tail := by
  obtain ⟨hp, rfl⟩ | ⟨rest, hp, rfl⟩ | ⟨cmd, rest, i, hp, -, hx⟩ | ⟨cmd, rest, c, hp, -, hx⟩ := step_cases h
  · rw [hp, List.tail_nil]
  · rw [hp, resetEvent_pending, List.tail_cons]
  · obtain ⟨-, hpending, -⟩ := exec_keeps_host_side hx
    rw [hp, hpending, present_pending, List.tail_cons]
  · rw [hp, List.tail_cons]
    obtain rfl | rfl := rejectWord_cases hx
    · rfl
    · rfl

/-- A run always ends, with the inputs after the first `n` still to come. -/
theorem run_takes_inputs (n : Nat) (s : State) :
    ∃ t, Host.Core.run Sys2Proof.core n s = .next t ∧ t.pending = s.pending.drop n := by
  induction n generalizing s with
  | zero => exact ⟨s, rfl, rfl⟩
  | succ n ih =>
    obtain ⟨u, hu⟩ := step_next s
    obtain ⟨t, ht, hpending⟩ := ih u
    refine ⟨t, (run_succ hu n).trans ht, ?_⟩
    rw [hpending, step_takes_input hu, List.drop_tail]

/-- Settles O9: the induction over the run, each step taking one input. -/
theorem runTakesOneInputAStep : Obligations.RunTakesOneInputAStep := run_takes_inputs

/-! ## The fault and the stop after it (60_exceptions R216, R219) -/

/-- The way a step of a running core comes to a fault: its command is presented and the fault is entered. -/
theorem step_faulting {s t : State} {cmd : Command} {rest : List HostInput} (hp : s.pending = .command cmd :: rest)
    (hf : s.faultCause = 0) (h : step s = .next t) (ht : t.faultCause ≠ 0) :
    ∃ c, t = takeFault c (present cmd rest s) := by
  cases hd : decode cmd.word with
  | op i => exact exec_faulting (s := present cmd rest s) hf ((step_command hp hd).symm.trans h) ht
  | fault c =>
    cases (step_rejected_running hp hf hd).symm.trans h
    exact ⟨c, rfl⟩

/-- Settles O14: a fault is entered in one way only, by a command and by a step. -/
theorem faultChangesOnlyTheCause : Obligations.FaultChangesOnlyTheCause := by
  constructor
  · intro i s t hf h ht
    obtain ⟨c, rfl⟩ := exec_faulting hf h ht
    rfl
  · intro s t cmd rest hp hf h ht
    obtain ⟨c, rfl⟩ := step_faulting hp hf h ht
    rfl

/-- Only a reset takes a stopped core out of the stop (60_exceptions R219). -/
theorem reset_of_step_clears_cause {s t : State} (hf : s.faultCause ≠ 0) (h : step s = .next t)
    (ht : t.faultCause = 0) : ∃ rest, s.pending = .reset :: rest := by
  cases hp : s.pending with
  | nil =>
    cases (step_idle hp).symm.trans h
    exact absurd ht hf
  | cons x rest =>
    cases x with
    | reset => exact ⟨rest, rfl⟩
    | command cmd =>
      cases (step_command_stopped hp hf).symm.trans h
      exact absurd ht hf

/-- Settles O12: a stopped core presents a command without performing it, and leaves the stop by a reset only. -/
theorem stoppedCorePerformsNothing : Obligations.StoppedCorePerformsNothing :=
  fun s hf => ⟨fun _ _ hp => step_command_stopped hp hf, fun _ h ht => reset_of_step_clears_cause hf h ht,
    fun rest hp => ⟨_, step_reset hp, resetEvent_faultCause s rest⟩, hf⟩

/-! ## The order of the checks (60_exceptions R220) -/

/-- The check of `cc` on a width-taking operation stands before that of its width code (30_encoding R65). -/
theorem decodeFields_widthTaking_of_cc {f : CmdFields} (ho : f.op.toNat ∈ widthOps) (hu : f.rsv ≠ 0 ∨ f.cc ≠ 0) :
    decodeFields f = .fault .illegalCommand := by
  by_cases hr : f.rsv = 0
  · obtain ⟨mk, hf⟩ := opForm_of_mem_widthOps ho
    rw [decodeFields_widthTaking hr hf, if_pos (hu.resolve_left (not_not.2 hr))]
  · exact decodeFields_of_rsv hr

/-- The check of `w` on TEST stands before that of its condition code (30_encoding R65). -/
theorem decodeFields_test_of_w {f : CmdFields} (ho : f.op.toNat = 0x18) (hw : f.w ≠ 0) :
    decodeFields f = .fault .illegalCommand := by
  by_cases hr : f.rsv = 0
  · rw [decodeFields_condTaking hr (opForm_of_eq_test ho), if_pos hw]
  · exact decodeFields_of_rsv hr

/-- A word has bits from 8 up exactly when its `rsv` or its `cc` has (30_encoding R56). -/
theorem rsv_or_cc_ne_zero {cmd : CmdWord} (h : cmd.toNat / 2 ^ 8 ≠ 0) :
    (cmdFields cmd).rsv ≠ 0 ∨ (cmdFields cmd).cc ≠ 0 := by
  rw [← not_and_or, ← bitVec_toNat_eq_zero, ← bitVec_toNat_eq_zero, cmdFields_rsv_toNat, cmdFields_cc_toNat]
  omega

/-- Where none of the state checks that apply to a command fails, it completes without a fault. -/
theorem exec_of_checks_passed {i : Instr} {s : State} (hf : s.faultCause = 0) (hlut : i ≠ .init → s.lutValid = true)
    (htest : ∀ cc, i = .test cc → s.flagsValid = true) (hindex : i = .lutrd → s.port.a.toNat < 32)
    (hamount : ∀ w, i = .shl w → ¬s.port.b.toInt < 0) : ∃ t, exec i s = .next t ∧ t.faultCause = 0 := by
  by_cases hi : i = .init
  · subst hi
    exact ⟨_, performInit_running hf _, hf⟩
  have hr : s.Ready := ⟨hf, hlut hi⟩
  cases i
  case init => exact absurd rfl hi
  case test cc => exact ⟨_, execTest_compared hr (htest cc rfl) cc, hf⟩
  case lutrd => exact ⟨_, execLutrd_of_index_lt hr (hindex rfl), hf⟩
  case shl w =>
    exact ⟨_, (perform_ready hr _).trans (congrArg _ (if_neg (hamount w rfl))), (driveWidth_faultCause ..).trans hf⟩
  case add w | sub w => exact ⟨_, perform_ready hr _, (driveWidth_faultCause ..).trans hf⟩
  case mul w =>
    refine ⟨_, perform_ready hr _, ?_⟩
    split
    · exact (driveWidth_faultCause ..).trans hf
    · exact (driveWidth_faultCause ..).trans hf
  all_goals exact ⟨_, perform_ready hr _, hf⟩

theorem exists_eq_test {i : Instr} (h : i matches .test _) : ∃ cc, i = .test cc := by
  cases i
  case test cc => exact ⟨cc, rfl⟩
  all_goals cases h

theorem exists_eq_shl {i : Instr} (h : i matches .shl _) : ∃ w, i = .shl w := by
  cases i
  case shl w => exact ⟨w, rfl⟩
  all_goals cases h

/-- Settles O19: the decoder's checks by field, then the state checks one after the other, each on a core that has passed those
before it. -/
theorem checksAreMadeInOrder : Obligations.ChecksAreMadeInOrder := by
  refine ⟨fun cmd => ⟨?rsv, ?cc, ?w⟩, fun s cmd rest hp => ⟨step_command_stopped hp, fun hf =>
    ⟨fun c hd => step_rejected_running hp hf hd, fun i hd => ?state⟩⟩⟩
  case rsv =>
    rw [← cmdFields_rsv_toNat, ne_eq, bitVec_toNat_eq_zero]
    exact decodeFields_of_rsv
  case cc =>
    rw [← cmdFields_op_toNat]
    exact fun ho h => decodeFields_widthTaking_of_cc ho (rsv_or_cc_ne_zero h)
  case w =>
    rw [← cmdFields_op_toNat, ← cmdFields_w_toNat, ne_eq, bitVec_toNat_eq_zero]
    exact decodeFields_test_of_w
  case state =>
    rw [step_command hp hd]
    have hlut (h : ¬(i ≠ .init ∧ s.lutValid = false)) (hi : i ≠ .init) : s.lutValid = true := by simpa [hi] using h
    split_ifs with huninit hundef hindex hrange
    · exact exec_uninit (s := present cmd rest s) huninit.1 hf huninit.2
    · obtain ⟨cc, rfl⟩ := exists_eq_test hundef.1
      exact execTest_undefined (s := present cmd rest s) ⟨hf, hlut huninit nofun⟩ hundef.2 cc
    · obtain ⟨rfl, ha⟩ := hindex
      exact execLutrd_of_index_gt (s := present cmd rest s) ⟨hf, hlut huninit nofun⟩ ha
    · obtain ⟨w, rfl⟩ := exists_eq_shl hrange.1
      exact execShl_of_negative (s := present cmd rest s) ⟨hf, hlut huninit nofun⟩ w hrange.2
    · refine exec_of_checks_passed (s := present cmd rest s) hf (hlut huninit) ?test ?lutrd ?shl
      case test =>
        rintro cc rfl
        simpa using hundef
      case lutrd =>
        rintro rfl
        simpa [Nat.lt_succ_iff] using hindex
      case shl =>
        rintro w rfl
        simpa using hrange

/-! ## FLAGS over a run without a CMP (70_reset R236) -/

/-- The host presents only commands, and none of them is a CMP. -/
def NoCompare (inputs : List HostInput) : Prop :=
  ∀ x ∈ inputs, ∃ c, x = HostInput.command c ∧ ∀ w, decode c.word ≠ .op (.cmp w)

/-- The second state holds the first's record, and the host still presents no CMP. -/
structure FlagsKept (s t : State) : Prop where
  pending : NoCompare t.pending
  flags : t.flags = s.flags
  flagsValid : t.flagsValid = s.flagsValid

theorem step_keeps_flags {s t : State} (hc : NoCompare s.pending) (h : step s = .next t) :
    t.flags = s.flags ∧ t.flagsValid = s.flagsValid := by
  obtain ⟨-, rfl⟩ | ⟨rest, hp, rfl⟩ | ⟨cmd, rest, i, hp, hd, hx⟩ | ⟨cmd, rest, c, -, -, hx⟩ := step_cases h
  · exact ⟨rfl, rfl⟩
  · obtain ⟨_, hcmd, -⟩ := hc .reset (hp ▸ List.mem_cons_self)
    cases hcmd
  · obtain ⟨_, hcmd, hne⟩ := hc (.command cmd) (hp ▸ List.mem_cons_self)
    cases hcmd
    have hi : ∀ w, i ≠ .cmp w := fun w e => hne w (e ▸ hd)
    exact ⟨(exec_keeps_flags hi hx).trans (present_flags s cmd rest),
      (exec_keeps_flagsValid hi hx).trans (present_flagsValid s cmd rest)⟩
  · obtain rfl | rfl := rejectWord_cases hx
    · exact ⟨rfl, rfl⟩
    · exact ⟨rfl, rfl⟩

theorem step_keeps_flagsKept {s t u : State} (hs : FlagsKept s t) (h : step t = .next u) : FlagsKept s u := by
  obtain ⟨hflags, hvalid⟩ := step_keeps_flags hs.pending h
  refine ⟨fun x hx => hs.pending x ?_, hflags.trans hs.flags, hvalid.trans hs.flagsValid⟩
  rw [step_takes_input h] at hx
  exact List.mem_of_mem_tail hx

/-- Settles O47: every step keeps the record and takes an input from a list without a CMP. -/
theorem flagsKeepTheLastCompare : Obligations.FlagsKeepTheLastCompare := by
  intro n s t hc h
  have hend : FlagsKept s t := run_keeps step_keeps_flagsKept ⟨hc, rfl, rfl⟩ h
  exact ⟨hend.flags, hend.flagsValid⟩

end Sys2Proof.Machine

/-!
The statements about results that rest on more than one rule: a second INIT (O28) and LUTRD after INIT and any commands (O30), the
laws of SHL (O36), the closed forms of CMP (O38) and its other parity readings (O39), the laws of the predicates after a CMP
(O45, O46) and the supplied predicates (O42, O43), and MUL at width 32 (O49).
-/
namespace Sys2Proof.Machine

/-! ## The table after INIT (41_bitpos_lut R102, R104) -/

section Table

variable {s t : State}

/-- INIT on a running core, whatever its table holds. -/
theorem execInit_running (hf : s.faultCause = 0) : exec .init s = .next (driveNothing (writeTable s)) :=
  performInit_running hf _

/-- Settles O28: the second INIT writes the same table over itself. -/
theorem initIsIdempotent : Obligations.InitIsIdempotent :=
  fun s hf => ⟨_, execInit_running hf, execInit_running (s := driveNothing (writeTable s)) hf⟩

/-- INIT establishes the invariant from any running core: the table is written and nothing is driven. -/
theorem inv_of_init (s : State) : (driveNothing (writeTable s)).Inv where
  table _ := tableSet_of_lut_eq rfl
  flagsAfterInit _ := rfl
  faultSilent _ := ⟨rfl, rfl⟩
  pOnY := nofun

/-- Only a reset makes the table undefined again (70_reset R230). -/
theorem exec_keeps_lutValid_true {i : Instr} (hv : s.lutValid = true) (h : exec i s = .next t) :
    t.lutValid = true := by
  cases exec_effect h with
  | init => rfl
  | widthResult w v => exact (driveWidth_lutValid s w v).trans hv
  | stopped | fault | compare | test | word => exact hv

theorem step_command_keeps_lutValid_true {cmd : Command} {rest : List HostInput}
    (hp : s.pending = .command cmd :: rest) (hv : s.lutValid = true) (h : step s = .next t) : t.lutValid = true := by
  cases hd : decode cmd.word with
  | op i => exact exec_keeps_lutValid_true (s := present cmd rest s) hv ((step_command hp hd).symm.trans h)
  | fault c =>
    obtain rfl | rfl := rejectWord_cases ((step_rejected hp hd).symm.trans h)
    · exact hv
    · exact hv

/-- A run over commands alone keeps the table defined, whatever the host presents after them. -/
theorem run_commands_keeps_lutValid_true (cmds : List Command) (rest : List HostInput) (hv : s.lutValid = true)
    (hp : s.pending = cmds.map .command ++ rest) (h : Host.Core.run Sys2Proof.core cmds.length s = .next t) :
    t.lutValid = true := by
  induction cmds generalizing s with
  | nil =>
    cases (run_zero s).symm.trans h
    exact hv
  | cons cmd cmds ih =>
    obtain ⟨u, hu⟩ := step_next s
    have hpu : u.pending = cmds.map .command ++ rest := by rw [step_takes_input hu, hp]; rfl
    exact ih (step_command_keeps_lutValid_true hp hv hu) hpu ((run_succ hu _).symm.trans h)

/-- On a ready core that keeps the invariant LUTRD gives the power of two (41_bitpos_lut R103). -/
theorem execLutrd_of_inv (hr : s.Ready) (hi : s.Inv) (ha : s.port.a.toNat ≤ 31) :
    exec .lutrd s = .next (driveWord (BitVec.ofNat 32 (2 ^ s.port.a.toNat)) s) := by
  obtain ⟨-, -, hready⟩ := lutrdReadsTheEntry
  obtain ⟨-, hentry, -⟩ := hready s hr
  exact hentry hi ha

end Table

/-- Settles O30: INIT establishes the invariant with the table defined, the run keeps both, and a good end makes the core ready
for the LUTRD it stands before. -/
theorem lutrdAfterInitAndAnyCommands : Obligations.LutrdAfterInitAndAnyCommands := by
  intro s t a b c cmds i j k rest hf hp h ht hindex
  have hinit := (step_command hp (decode_encode .init)).trans (execInit_running (s := present _ _ s) hf)
  have hrun := (run_succ hinit _).symm.trans h
  have hinv : t.Inv := run_keeps (everyStepKeepsTheInvariant _ _) (inv_of_init _) hrun
  have hvalid : t.lutValid = true := run_commands_keeps_lutValid_true cmds _ rfl rfl hrun
  have hpending : t.pending = .command ⟨0x001C, i, j, k⟩ :: rest := by
    obtain ⟨_, hrun', hdrop⟩ := run_takes_inputs (cmds.length + 1) s
    cases h.symm.trans hrun'
    simp [hdrop, hp]
  have hready : (present ⟨0x001C, i, j, k⟩ rest t).Ready := ⟨ht, hvalid⟩
  exact ⟨_, (step_command hpending (decode_encode .lutrd)).trans
    (execLutrd_of_inv hready (inv_present _ _ hinv) hindex), rfl, ht⟩

/-! ## The laws of SHL (44_shift R142) -/

/-- Another word on a port keeps the invariant, which reads no port. -/
theorem inv_withPort {s : State} (q : Port) (v : Word) (hi : s.Inv) : (withPort q v s).Inv :=
  inv_of_same_table hi (withPort_lut ..) (withPort_lutValid ..) (withPort_flagsValid ..)
    (by simpa using hi.faultSilent) (by simpa using hi.pOnY)

/-- SHL by an amount that is not negative, in the low `w` bits. -/
theorem execShl_by {s : State} (hr : s.Ready) (hi : s.Inv) (w : Width) {k : Word} (hk : 0 ≤ k.toInt) :
    ∃ t v, exec (.shl w) (withPort .b k s) = .next t ∧ t.y = some v ∧
      v.toNat % 2 ^ widthBits w = s.port.a.toNat * 2 ^ (k.toNat % widthBits w) % 2 ^ widthBits w := by
  obtain ⟨_, hn⟩ := execShl_of_nonneg (s := withPort .b k s) hr (inv_withPort .b k hi) w hk
  exact ⟨_, _, hn, rfl, shlW_mod _ _ _ w⟩

/-- An amount below the width is a number, and not a negative one, in 32 bits. -/
theorem toNat_ofNat_mod_widthBits (n : Nat) (w : Width) :
    (BitVec.ofNat 32 (n % widthBits w)).toNat = n % widthBits w ∧
      0 ≤ (BitVec.ofNat 32 (n % widthBits w)).toInt := by
  have hlt : n % widthBits w < 32 :=
    (Nat.mod_lt n (by have := widthBits_pos w; omega)).trans_le (widthBits_le w)
  have hnat : (BitVec.ofNat 32 (n % widthBits w)).toNat = n % widthBits w := by
    rw [BitVec.toNat_ofNat]
    omega
  refine ⟨hnat, ?_⟩
  rw [BitVec.toInt_eq_toNat_of_lt (by omega)]
  omega

/-- Settles O36: the amount counts modulo the width, and the amount 0 multiplies by 1. -/
theorem shlWraparoundAndIdentity : Obligations.ShlWraparoundAndIdentity := by
  intro w k s hr hi hk
  obtain ⟨hnat, hnonneg⟩ := toNat_ofNat_mod_widthBits k.toNat w
  obtain ⟨t, vt, ht, hyt, hvt⟩ := execShl_by hr hi w hk
  obtain ⟨u, vu, hu, hyu, hvu⟩ := execShl_by hr hi w hnonneg
  obtain ⟨z, vz, hz, hyz, hvz⟩ := execShl_by hr hi w (k := 0) le_rfl
  refine ⟨t, u, z, vt, vu, vz, ht, hyt, hu, hyu, hz, hyz, ?_, ?_⟩
  · rw [hvt, hvu, hnat, Nat.mod_mod]
  · simpa using hvz

/-! ## The flags after a CMP (45_flags_predicates R158, 93_implementation_defined I4) -/

/-- CMP on a ready core that keeps the invariant: the record is the scan's over the powers of two. -/
theorem execCmp_of_inv {s : State} (hr : s.Ready) (hi : s.Inv) (w : Width) :
    exec (.cmp w) s = .next (driveWord (packFlags (compareW s.pfRule powerTable s.port.a s.port.b w))
      (writeFlags (compareW s.pfRule powerTable s.port.a s.port.b w) s)) :=
  execCmp_ready hr (by rw [hr.lut_eq hi])

/-- Settles O38: the closed forms of the scan. -/
theorem cmpClosedForms : Obligations.CmpClosedForms :=
  fun w _ hr hi => ⟨_, execCmp_of_inv hr hi w, compareW_cf _ _ _ w, compareW_zf _ _ _ w, compareW_sf _ _ _ w,
    compareW_ovf _ _ _ w, compareW_signed_lt _ _ _ w⟩

/-- The parity rule bears on no flag but PF. -/
theorem compareW_eq_withPf (rule rule' : PfRule) (a b : Word) (w : Width) :
    compareW rule powerTable a b w =
      { compareW rule' powerTable a b w with pf := (compareW rule powerTable a b w).pf } := by
  dsimp only
  rw [compareW_cf rule', ← compareW_cf rule, compareW_zf rule', ← compareW_zf rule, compareW_ovf rule',
    ← compareW_ovf rule, compareW_sf rule', ← compareW_sf rule]

/-- Another parity rule is no matter of the invariant. -/
theorem inv_withPfRule {s : State} (rule : PfRule) (hi : s.Inv) : { s with pfRule := rule }.Inv :=
  inv_of_same_table hi rfl rfl rfl hi.faultSilent hi.pOnY

/-- Settles O39: the records differ in PF alone, and each reading says what it holds there. -/
theorem otherParityReadings : Obligations.OtherParityReadings := by
  intro w s hr hi
  refine ⟨_, _, _, _, _, _, execCmp_of_inv (s := { s with pfRule := .toggleFromZero }) hr (inv_withPfRule _ hi) w, rfl,
    execCmp_of_inv (s := { s with pfRule := .toggleFromOne }) hr (inv_withPfRule _ hi) w, rfl,
    execCmp_of_inv (s := { s with pfRule := .setBelowEight }) hr (inv_withPfRule _ hi) w, rfl, ?_, ?_⟩
  · refine (compareW_eq_withPf _ .toggleFromZero _ _ w).trans ?_
    rw [compareW_pf_toggleFromOne]
    rfl
  · refine (compareW_eq_withPf _ .toggleFromZero _ _ w).trans ?_
    rw [compareW_pf_setBelowEight, Bool.decide_and]
    rfl

/-! ## The predicates after a CMP (45_flags_predicates R191, R192) -/

/-- Words have the same signed value in `w` bits exactly when they agree modulo `2^w`. -/
theorem signedLow_inj (w : Width) (a b : Word) :
    signedLow w a = signedLow w b ↔ a.toNat % 2 ^ widthBits w = b.toNat % 2 ^ widthBits w := by
  rw [signedLow, signedLow, BitVec.toInt_inj, ← BitVec.toNat_inj, BitVec.toNat_setWidth, BitVec.toNat_setWidth]

/-- The difference vanishes modulo `2^w` exactly when the operands agree there. -/
theorem toNat_sub_mod_eq_zero_iff (a b : Word) (w : Width) :
    (a - b).toNat % 2 ^ widthBits w = 0 ↔ a.toNat % 2 ^ widthBits w = b.toNat % 2 ^ widthBits w := by
  have ha := Nat.mod_lt a.toNat (Nat.two_pow_pos (widthBits w))
  have hb := Nat.mod_lt b.toNat (Nat.two_pow_pos (widthBits w))
  rw [toNat_sub_mod]
  cases w <;> simp only [widthBits] at * <;> omega

/-- Of "below", "equal" and "above" exactly one holds. -/
theorem toNat_decide_trichotomy {α : Type} [LinearOrder α] (x y : α) :
    (decide (x < y)).toNat + (decide (x = y)).toNat + (decide (y < x)).toNat = 1 := by
  obtain h | h | h := lt_trichotomy x y
  · simp [h, h.ne, h.not_gt]
  · simp [h]
  · simp [h, h.ne', h.not_gt]

/-- Neither equal nor below is above, of a linear order. -/
theorem not_eq_and_not_lt_decide {α : Type} [LinearOrder α] (x y : α) :
    (!decide (x = y) && !decide (x < y)) = decide (y < x) := by
  obtain h | h | h := lt_trichotomy x y
  · simp [h, h.not_gt]
  · simp [h]
  · simp [h, h.ne', h.not_gt]

section Predicates

variable (rule : PfRule) (a b : Word) (w : Width)

theorem condHolds_e_compareW : condHolds .e (compareW rule powerTable a b w) =
    decide (a.toNat % 2 ^ widthBits w = b.toNat % 2 ^ widthBits w) :=
  (compareW_zf rule a b w).trans (decide_eq_decide.2 (toNat_sub_mod_eq_zero_iff a b w))

theorem condHolds_l_compareW : condHolds .l (compareW rule powerTable a b w) =
    decide (signedLow w a < signedLow w b) := compareW_signed_lt rule a b w

theorem condHolds_b_compareW : condHolds .b (compareW rule powerTable a b w) =
    decide (a.toNat % 2 ^ widthBits w < b.toNat % 2 ^ widthBits w) := compareW_cf rule a b w

theorem condHolds_g_compareW : condHolds .g (compareW rule powerTable a b w) =
    decide (signedLow w b < signedLow w a) := by
  rw [← not_eq_and_not_lt_decide, ← condHolds_l_compareW rule, decide_eq_decide.2 (signedLow_inj w a b),
    ← condHolds_e_compareW rule]
  rfl

theorem condHolds_a_compareW : condHolds .a (compareW rule powerTable a b w) =
    decide (b.toNat % 2 ^ widthBits w < a.toNat % 2 ^ widthBits w) := by
  rw [← not_eq_and_not_lt_decide, ← condHolds_b_compareW rule, ← condHolds_e_compareW rule, Bool.and_comm]
  rfl

end Predicates

/-- Every predicate but P, PE, NP and PO has the same value whatever PF is (45_flags_predicates R192). -/
theorem condHolds_withPf {cc : Cond} (hcc : cc ∉ [Cond.p, .pe, .np, .po]) (f : Flags) (b : Bool) :
    condHolds cc { f with pf := b } = condHolds cc f := by
  cases cc
  case p | pe | np | po => exact absurd (by decide) hcc
  all_goals rfl

/-- TEST after a CMP reads the record CMP wrote. -/
theorem execTest_after_cmp {s : State} (hr : s.Ready) (v : Word) (f : Flags) (cc : Cond) :
    exec (.test cc) (driveWord v (writeFlags f s)) =
      .next (driveBit (condHolds cc f) (driveWord v (writeFlags f s))) :=
  execTest_compared (s := driveWord v (writeFlags f s)) hr rfl cc

/-- Settles O45: on the record CMP wrote the predicates are the signed and the unsigned order; none of the nine is one that reads
PF. -/
theorem comparisonLaws : Obligations.ComparisonLaws := by
  refine ⟨fun w s hr hi => ?laws, fun cc hcc => condHolds_withPf ?parity⟩
  case parity =>
    revert cc
    decide
  case laws =>
    refine ⟨_, fun cc => condHolds cc (compareW s.pfRule powerTable s.port.a s.port.b w), execCmp_of_inv hr hi w,
      fun cc => ⟨_, execTest_after_cmp hr _ _ cc, rfl⟩, ?_⟩
    simp only [condHolds_e_compareW, condHolds_l_compareW, condHolds_g_compareW, condHolds_b_compareW,
      condHolds_a_compareW, decide_eq_true_iff, true_and]
    refine ⟨?signed, toNat_decide_trichotomy _ _, ?le, ?be⟩
    case signed =>
      rw [← decide_eq_decide.2 (signedLow_inj w _ _)]
      exact toNat_decide_trichotomy _ _
    case le =>
      rw [← condHolds_l_compareW s.pfRule, ← condHolds_e_compareW s.pfRule]
      exact Bool.or_comm _ _
    case be =>
      rw [← condHolds_b_compareW s.pfRule, ← condHolds_e_compareW s.pfRule]
      rfl

/-- Settles O46: for each of the four, a record whose PF decides it. -/
theorem onlyFourPredicatesReadParity : Obligations.OnlyFourPredicatesReadParity := by
  intro cc
  constructor
  · rintro ⟨f, b, hne⟩
    by_contra hcc
    exact hne (condHolds_withPf hcc f b)
  · intro hcc
    refine ⟨⟨false, false, false, false, false⟩, true, ?_⟩
    revert cc
    decide

/-! ## The supplied predicates (45_flags_predicates R162-R190, decision D32) -/

/-- Conditions with one formula: TEST drives its value for each of them. -/
theorem execTest_of_formula {s : State} {b : Bool} {ccs : List Cond} (hr : s.Ready) (hv : s.flagsValid = true)
    (hb : ∀ cc ∈ ccs, condHolds cc s.flags = b) : ∀ cc ∈ ccs, exec (.test cc) s = .next (driveBit b s) := by
  intro cc hcc
  rw [execTest_compared hr hv cc, hb cc hcc]

/-- Settles O42: the decoder evaluated on each word, and each condition has the formula of its group. -/
theorem suppliedUnsignedPredicates : Obligations.SuppliedUnsignedPredicates := by
  refine ⟨?words, fun s hr hv => ?formulas⟩
  case words => decide
  case formulas => and_intros <;> exact execTest_of_formula hr hv (by simp [condHolds])

/-- Settles O43: the same of the conditions that read SF or PF. -/
theorem suppliedSignAndParityPredicates : Obligations.SuppliedSignAndParityPredicates := by
  refine ⟨?words, fun s hr hv => ?formulas⟩
  case words => decide
  case formulas => and_intros <;> exact execTest_of_formula hr hv (by simp [condHolds])

/-! ## Multiplication at width 32 (46_multiply R203) -/

/-- MUL.32 on a ready core that keeps the invariant: every pair is in the domain, and no upper bits are drawn. -/
theorem execMul_w32 {s : State} (hr : s.Ready) (hi : s.Inv) :
    exec (.mul .w32) s = .next (driveWord (s.port.a * s.port.b) s) := by
  rw [← mulW_w32 (drawUpper .mul .w32 s), ← hr.lut_eq hi]
  exact perform_ready hr _

/-- Settles O49: the product modulo `2^32` is that of the signed operands, and INT32_MIN multiplies by `2^31`. -/
theorem mulIsSignedAtWidth32 : Obligations.MulIsSignedAtWidth32 := by
  intro s hr hi
  constructor
  · rw [BitVec.ofInt_mul, BitVec.ofInt_toInt, BitVec.ofInt_toInt]
    exact execMul_w32 hr hi
  · rw [BitVec.shiftLeft_eq_mul_twoPow, BitVec.mul_comm]
    exact execMul_w32 (s := withPort .a 0x80000000 s) hr (inv_withPort .a _ hi)

end Sys2Proof.Machine
